-- ==== Sys2Proof/Word.lean ====
section
/-! DEFINITION. The words the block moves (spec/00_scope.md rule R6): bytes, 32-bit register values, and the byte
sequences that cross its boundary. Clock readings and numbers of milliseconds are natural numbers, because their width CLOCK_BITS
is a parameter (00_scope.md R5); every operation that can exceed the width reduces by it (log 2). -/

namespace Sys2Proof

/-- A byte, 8 bits everywhere (20_memory.md R41). -/
abbrev Byte := BitVec 8

/-- A 32-bit register value (20_memory.md R50). -/
abbrev Word := BitVec 32

/-- A 4-bit field: a command code, a length (30_encoding.md R83). -/
abbrev Nibble := BitVec 4

/-- A 7-bit logical register address (30_encoding.md R75). -/
abbrev RegAddr := BitVec 7

/-- `u32(v)`: the 32 bits of a signed value (41_checksum.md R112 (b)). -/
def u32 (v : Int) : Word := BitVec.ofInt 32 v

/-- `i32(w)`: a word read as two's complement (41_checksum.md R112 (b)). -/
def i32 (w : Word) : Int := w.toInt

/-- Where a byte sequence crosses the block's boundary. The two directions of the wire are kept apart because a frame's
format follows from its direction (30_encoding.md R79). -/
inductive Channel where
  /-- the command port (30_encoding.md R83) -/
  | command
  /-- a frame from the block to the device -/
  | toDevice
  /-- a frame from the device to the block -/
  | toBlock
  deriving DecidableEq, Repr

/-- A byte sequence on one of the channels. -/
structure Transfer where
  channel : Channel
  bytes : List Byte
  deriving DecidableEq, Repr

end Sys2Proof
end

