-- ==== Sys2Proof/Config.lean ====
section
/-! DEFINITION. The implementation parameters of spec/00_scope.md rule R5, with the defaults the spec decides, and the
values the spec leaves free. -/

namespace Sys2Proof

/-- The parameters that are values (R5). A state carries its configuration, so a statement about every state is a
statement about every configuration (log 1). -/
structure Config where
  /-- SYNC, the first byte of every frame the block sends -/
  sync : Byte
  /-- CRC_POLY, the polynomial the host passes to CRC.INITTABLE at boot (70_reset_and_hazards.md R231) -/
  crcPoly : Byte
  /-- CRC_REFLECTED, the `reflected` argument of the same call -/
  crcReflected : Bool
  /-- N_CRC_TABLES -/
  nCrcTables : Nat
  /-- CRC_INDEX, the table the codec uses -/
  crcIndex : Nat
  /-- SETTLE_MS -/
  settleMs : Nat
  /-- TIMEOUT_MS -/
  timeoutMs : Nat
  /-- STALE_SENTINEL -/
  staleSentinel : Word
  /-- SLAVE_ADDR_RESET -/
  slaveAddrReset : Byte
  /-- MAX_XFER, the largest transfer and the size of FB and RB -/
  maxXfer : Nat
  /-- CLOCK_BITS, the width of the clock and of every operand and latch that holds a time -/
  clockBits : Nat
  /-- RX_CAP, the capacity of the bus primitive's receive buffer -/
  rxCap : Nat
  deriving DecidableEq, Repr

/-- What RX_CAP exceeds REPLY_LEN by in the configuration of `Config.default`: the spec leaves it OPEN (R5, 92_eei_decisions.md D32;
log 8). -/
opaque Config.rxCapExtra : Nat

/-- The defaults of R5. PRESUMED by the spec itself: 93_implementation_defined.md U1, U2, U5, U7, U9, U11, U13, U15;
MAX_XFER and CLOCK_BITS are 92_eei_decisions.md D22, D21 (log 11). RX_CAP has no default: it is REPLY_LEN and an open excess (D32, log 8). -/
def Config.default : Config where
  sync := 0x05
  crcPoly := 0x07
  crcReflected := true
  nCrcTables := 2
  crcIndex := 1
  settleMs := 2
  timeoutMs := 10
  staleSentinel := 0
  slaveAddrReset := 0
  maxXfer := 8
  clockBits := 32
  rxCap := rxCapExtra + 8

namespace Config

/-- How many readings the clock has: `2^CLOCK_BITS` (60_exceptions.md R203). -/
def clockRange (c : Config) : Nat := 2 ^ c.clockBits

/-- How many whole bytes carry a CLOCK_BITS operand in a port image (log 4). -/
def clockBytes (c : Config) : Nat := (c.clockBits + 7) / 8

/-- A configuration whose parameters fit together: the codec's table is one of the block's tables, a frame fits FB and RB
(30_encoding.md R71, R73), the two delays are numbers of CLOCK_BITS bits, and a reply fits the receive buffer (R5: RX_CAP is "at least
`REPLY_LEN`"). -/
abbrev wf (c : Config) : Prop :=
  c.crcIndex < c.nCrcTables ∧ 8 ≤ c.maxXfer ∧ c.settleMs < c.clockRange ∧ c.timeoutMs < c.clockRange ∧
    8 ≤ c.rxCap

/-- WRITE_LEN (30_encoding.md R71). -/
def writeLen : Nibble := 8

/-- READREQ_LEN (30_encoding.md R72). -/
def readreqLen : Nibble := 4

/-- REPLY_LEN (30_encoding.md R73). -/
def replyLen : Nibble := 8

/-- What a full receive buffer holds after one more byte arrives: left open (60_exceptions.md R212, 91_not_in_source.md
N16; log 8). The counter makes each use a fresh one. -/
opaque rxOverflow : Nat → List Byte → Byte → List Byte

/-- The checksum CRC.CALC delivers for a length above MAX_XFER: no rule gives its value (41_checksum.md R104; log 14). -/
opaque freeCrc : Nat → Byte

/-- What CRC.CHECK delivers for a length above MAX_XFER: no rule gives its value (41_checksum.md R106; log 14). -/
opaque freeCheck : Nat → Bool

/-- What the sequencer finds in byte `i` of a latch array where nothing was written, in states no run reaches (10_state.md R15;
log 20). -/
opaque unwrittenByte : Nat → Nat → Byte

/-- The same for a 4-bit latch. -/
opaque unwrittenNibble : Nat → Nibble

/-- The same for a time latch. -/
opaque unwrittenClock : Nat → Nat

end Config

end Sys2Proof
end

