-- ==== Sys2Proof/Machine/Operands.lean ====
section
/-! DEFINITION. The bit fields and byte orders of the operands and the frames (spec/00_scope.md R6, 30_encoding.md R74 to
R78, 20_memory.md R42). -/

namespace Sys2Proof.Machine

/-- `flip8(b)`: bit `k` of the result is bit `7-k` of `b` (00_scope.md R6). -/
def flip8 (b : Byte) : Byte := b.reverse

/-- The four bytes of a 32-bit payload, most significant first (20_memory.md R42, 30_encoding.md R76). -/
def payloadBytes (w : Word) : List Byte :=
  [w.extractLsb' 24 8, w.extractLsb' 16 8, w.extractLsb' 8 8, w.extractLsb' 0 8]

/-- The 32-bit payload assembled from its bytes, `b3` most significant (30_encoding.md R76). -/
def payloadOf (b3 b4 b5 b6 : Byte) : Word :=
  (b3.zeroExtend 32 <<< 24) ||| (b4.zeroExtend 32 <<< 16) ||| (b5.zeroExtend 32 <<< 8) ||| b6.zeroExtend 32

/-- Byte 2 of a frame, `{w, addr[6:0]}` (30_encoding.md R75). -/
def addrByte (write : Bool) (addr : RegAddr) : Byte := addr.zeroExtend 8 ||| (if write then 0x80 else 0x00)

/-- The logical address in byte 2 of a frame or in an 8-bit operand: bits 6:0, that is `b & 0x7F` (30_encoding.md R75). -/
def logicalAddr (b : Byte) : RegAddr := b.setWidth 7

/-- Bit 7 of byte 2, the write flag (30_encoding.md R75). -/
def writeFlag (b : Byte) : Bool := b.getLsbD 7

/-- The bytes of a write frame before its checksum (30_encoding.md R71). -/
def writeBody (sync slave : Byte) (addr : RegAddr) (value : Word) : List Byte :=
  [sync, slave, addrByte true addr] ++ payloadBytes value

/-- The bytes of a read-request frame before its checksum (30_encoding.md R72). -/
def readreqBody (sync slave : Byte) (addr : RegAddr) : List Byte :=
  [sync, slave, addrByte false addr]

/-- The bytes of a reply frame before its checksum (30_encoding.md R73). -/
def replyBody (byte0 byte1 : Byte) (flag : Bool) (addr : RegAddr) (value : Word) : List Byte :=
  [byte0, byte1, addrByte flag addr] ++ payloadBytes value

/-- A one-bit operand line as the byte that carries it in a port image (log 4). -/
def boolByte (b : Bool) : Byte := (BitVec.ofBool b).zeroExtend 8

/-- A four-bit operand line as the byte that carries it in a port image (log 4). -/
def nibbleByte (n : Nibble) : Byte := n.zeroExtend 8

/-- The `k` lowest bytes of a number, least significant first: how the table numbers the words of a port image. -/
def bytesLE : Nat → Nat → List Byte
  | 0, _ => []
  | k + 1, w => BitVec.ofNat 8 w :: bytesLE k (w / 256)

/-- The `k` lowest bytes of a number, most significant first: how the table numbers a frame, whose first byte is
written leftmost, and how a port image carries a CLOCK_BITS operand (log 4). -/
def bytesBE (k w : Nat) : List Byte := (bytesLE k w).reverse

/-- The number whose bytes these are, most significant first. -/
def natOfBytes (bytes : List Byte) : Nat := bytes.foldl (fun w b => 256 * w + b.toNat) 0

end Sys2Proof.Machine
end

