-- ==== Sys2Proof/Syntax.lean ====
section
/-! DEFINITION. What the block can be given: one constructor for each row of spec/opcode_table.json, in the table's order.
Operands have the widths of the port (30_encoding.md R83) or of the frame's fields (R71 to R73). -/

namespace Sys2Proof

/-- The rows of the opcode table. A `data` operand stands for the byte lines of the port, MAX_XFER of them (DEC.REPLY has
eight), of which the first `n` (or `writeLength`) are meant. An `i32` operand is given by its 32 bits (41_checksum.md R112). -/
inductive Instr where
  /-- `CRC.INITTABLE poly, reflected, index` (41_checksum.md R102) -/
  | crcInittable (poly : Byte) (reflected : Bool) (index : Byte)
  /-- `CRC.CALC bytes` (41_checksum.md R104) -/
  | crcCalc (data : List Byte) (n : Nibble) (index : Byte)
  /-- `CRC.CHECK bytes` (41_checksum.md R106) -/
  | crcCheck (data : List Byte) (n : Nibble) (index : Byte)
  /-- `XCHG data, writeLength, readLength, timeoutMs` (42_transport.md R120) -/
  | xchg (data : List Byte) (writeLength readLength : Nibble) (timeoutMs : Nat)
  /-- `ENC.WRITE slave, regAddr, value` (43_frame_codec.md R150) -/
  | encWrite (slave regAddr : Byte) (value : Word)
  /-- `ENC.READREQ slave, regAddr` (43_frame_codec.md R151) -/
  | encReadreq (slave regAddr : Byte)
  /-- `DEC.REPLY bytes` (43_frame_codec.md R153) -/
  | decReply (data : Vector Byte 8) (n : Nibble)
  /-- `WRREG address, value` (44_register_engine.md R171) -/
  | wrreg (address : Byte) (value : Word)
  /-- `RDREG address` (44_register_engine.md R172) -/
  | rdreg (address : Byte)
  /-- `CSRRW csr, value` (44_register_engine.md R174) -/
  | csrrw (csr : Byte) (value : Word)
  /-- `CSRR csr` (44_register_engine.md R175) -/
  | csrr (csr : Byte)
  /-- the refused command codes 0xB to 0xF (30_encoding.md R85) -/
  | reserved (code : Nibble)
  /-- a write frame on its way to the device (30_encoding.md R71) -/
  | frameWrite (slave : Byte) (regAddr : RegAddr) (value : Word) (checksum : Byte)
  /-- a read-request frame on its way to the device (30_encoding.md R72) -/
  | frameReadreq (slave : Byte) (regAddr : RegAddr) (checksum : Byte)
  /-- a reply frame on its way to the block (30_encoding.md R73); `byte0`, `byte1` and `flag` are the bits the decoder
  does not examine -/
  | frameReply (byte0 byte1 : Byte) (flag : Bool) (regAddr : RegAddr) (value : Word) (checksum : Byte)
  deriving DecidableEq, Repr

/-- `SLAVE.SET v` (30_encoding.md R87). -/
def Instr.slaveSet (v : Word) : Instr := .csrrw 0 v

/-- `SLAVE.GET` (30_encoding.md R87). -/
def Instr.slaveGet : Instr := .csrr 0

/-- `VALIDATE frame` with `CRC_INDEX = crcIndex` (30_encoding.md R87). -/
def Instr.validate (crcIndex : Byte) (frame : List Byte) (n : Nibble) : Instr := .crcCheck frame n crcIndex

end Sys2Proof
end

