-- ==== Sys2Proof/WellFormed.lean ====
section
/-! DEFINITION. Which terms of `Instr` the port or the wire can carry: the bounds the types of the operands do not say. -/

namespace Sys2Proof

/-- The port has MAX_XFER byte lines and a `timeoutMs` of CLOCK_BITS (30_encoding.md R83, 42_transport.md R120), and the refused
codes are 0xB to 0xF (R85). A length above MAX_XFER is NOT ill formed: the port carries it. -/
def Instr.wf (cfg : Config) : Instr → Bool
  | .crcInittable _ _ _ => true
  | .crcCalc data _ _ => data.length == cfg.maxXfer
  | .crcCheck data _ _ => data.length == cfg.maxXfer
  | .xchg data _ _ timeoutMs => data.length == cfg.maxXfer && decide (timeoutMs < cfg.clockRange)
  | .encWrite _ _ _ => true
  | .encReadreq _ _ => true
  | .decReply _ _ => true
  | .wrreg _ _ => true
  | .rdreg _ => true
  | .csrrw _ _ => true
  | .csrr _ => true
  | .reserved code => decide (0xB ≤ code.toNat)
  | .frameWrite _ _ _ _ => true
  | .frameReadreq _ _ _ => true
  | .frameReply _ _ _ _ _ _ => true

end Sys2Proof
end

