-- ==== Sys2Proof/Decode.lean ====
section
/-! DEFINITION. Decoding of what stands at the command port and of the frames on the wire, total on any bytes and rejecting
by name; then the encoder, written from the same tables (spec/30_encoding.md R71 to R76, R83, R85). -/

namespace Sys2Proof

open Sys2Proof.Machine

/-- Why a byte sequence is nothing the block can be given. -/
inductive DecodeError where
  /-- a port image without a command code or without all of the operation's operand bytes -/
  | truncated
  /-- a port image with a one in a bit that no line of the port carries (log 4) -/
  | padding
  /-- a frame whose length is neither of those its direction has (30_encoding.md R79) -/
  | badFrameLength
  /-- a frame to the device whose first byte is not SYNC (30_encoding.md R74) -/
  | badSync
  /-- a frame to the device whose write flag does not agree with its length (30_encoding.md R82) -/
  | badFlag
  deriving DecidableEq, Repr

/-- A four-bit line from the byte that carries it. -/
def nibbleOf (b : Byte) : Except DecodeError Nibble :=
  if b.toNat < 16 then .ok (b.setWidth 4) else .error .padding

/-- A one-bit line from the byte that carries it. -/
def boolOf (b : Byte) : Except DecodeError Bool :=
  if b.toNat < 2 then .ok (b.getLsbD 0) else .error .padding

/-- `poly`, `reflected`, `index` (30_encoding.md R83). -/
def decodeCrcInittable : List Byte → Except DecodeError Instr
  | poly :: r :: index :: _ => (boolOf r).map fun reflected => .crcInittable poly reflected index
  | _ => .error .truncated

/-- The first `k` byte lines, and those behind them. -/
def takeLines (k : Nat) (ops : List Byte) : Except DecodeError (List Byte × List Byte) :=
  if k ≤ ops.length then .ok (ops.take k, ops.drop k) else .error .truncated

/-- `n`, then `index`, behind the MAX_XFER byte lines `data` (30_encoding.md R83). -/
def decodeNIndex (mk : List Byte → Nibble → Byte → Instr) (data : List Byte) : List Byte → Except DecodeError Instr
  | n :: index :: _ => (nibbleOf n).map fun n => mk data n index
  | _ => .error .truncated

/-- MAX_XFER byte lines, then `n`, then `index` (30_encoding.md R83, 41_checksum.md R104). -/
def decodeBytesNIndex (cfg : Config) (mk : List Byte → Nibble → Byte → Instr) (ops : List Byte) :
    Except DecodeError Instr :=
  (takeLines cfg.maxXfer ops).bind fun p => decodeNIndex mk p.1 p.2

/-- A CLOCK_BITS operand from the whole bytes that carry it, most significant first (42_transport.md R120). -/
def decodeTime (cfg : Config) (ops : List Byte) : Except DecodeError Nat :=
  (takeLines cfg.clockBytes ops).bind fun p =>
    if natOfBytes p.1 < cfg.clockRange then .ok (natOfBytes p.1) else .error .padding

/-- The two lengths, then `timeoutMs`, behind the MAX_XFER byte lines `data` (30_encoding.md R83). -/
def decodeLengthsTime (cfg : Config) (data : List Byte) : List Byte → Except DecodeError Instr
  | wl :: rl :: ops =>
    (nibbleOf wl).bind fun wl => (nibbleOf rl).bind fun rl => (decodeTime cfg ops).map fun t => .xchg data wl rl t
  | _ => .error .truncated

/-- MAX_XFER byte lines, then the two lengths, then `timeoutMs` (30_encoding.md R83, 42_transport.md R120). -/
def decodeXchg (cfg : Config) (ops : List Byte) : Except DecodeError Instr :=
  (takeLines cfg.maxXfer ops).bind fun p => decodeLengthsTime cfg p.1 p.2

/-- `slave`, `regAddr`, `value` (30_encoding.md R83). -/
def decodeEncWrite : List Byte → Except DecodeError Instr
  | slave :: regAddr :: v0 :: v1 :: v2 :: v3 :: _ => .ok (.encWrite slave regAddr (payloadOf v0 v1 v2 v3))
  | _ => .error .truncated

/-- `slave`, `regAddr` (30_encoding.md R83). -/
def decodeEncReadreq : List Byte → Except DecodeError Instr
  | slave :: regAddr :: _ => .ok (.encReadreq slave regAddr)
  | _ => .error .truncated

/-- Eight byte lines, then `n` (30_encoding.md R83). -/
def decodeDecReply : List Byte → Except DecodeError Instr
  | b0 :: b1 :: b2 :: b3 :: b4 :: b5 :: b6 :: b7 :: n :: _ =>
    (nibbleOf n).map fun n => .decReply #v[b0, b1, b2, b3, b4, b5, b6, b7] n
  | _ => .error .truncated

/-- One byte operand and a 32-bit value: WRREG's and CSRRW's shape (30_encoding.md R83). -/
def decodeByteWord (mk : Byte → Word → Instr) : List Byte → Except DecodeError Instr
  | b :: v0 :: v1 :: v2 :: v3 :: _ => .ok (mk b (payloadOf v0 v1 v2 v3))
  | _ => .error .truncated

/-- One byte operand: RDREG's and CSRR's shape (30_encoding.md R83). -/
def decodeByte (mk : Byte → Instr) : List Byte → Except DecodeError Instr
  | b :: _ => .ok (mk b)
  | _ => .error .truncated

/-- The operand fields that go with a command code (30_encoding.md R83, R85). Operand lines an operation does not have are
not looked at. -/
def decodeOperands (cfg : Config) (code : Nibble) (ops : List Byte) : Except DecodeError Instr :=
  match code.toNat with
  | 0x0 => decodeCrcInittable ops
  | 0x1 => decodeBytesNIndex cfg .crcCalc ops
  | 0x2 => decodeBytesNIndex cfg .crcCheck ops
  | 0x3 => decodeXchg cfg ops
  | 0x4 => decodeEncWrite ops
  | 0x5 => decodeEncReadreq ops
  | 0x6 => decodeDecReply ops
  | 0x7 => decodeByteWord .wrreg ops
  | 0x8 => decodeByte .rdreg ops
  | 0x9 => decodeByteWord .csrrw ops
  | 0xA => decodeByte .csrr ops
  | _ => .ok (.reserved code)

/-- A port image: the command code, then the operand fields in the order of 30_encoding.md R83 (log 4). -/
def decodeCommand (cfg : Config) : List Byte → Except DecodeError Instr
  | [] => .error .truncated
  | op :: ops => (nibbleOf op).bind fun code => decodeOperands cfg code ops

/-- A frame to the device (30_encoding.md R71, R72, R79, R82). -/
def decodeToDevice (cfg : Config) : List Byte → Except DecodeError Instr
  | [b0, b1, b2, b3] =>
    if b0 ≠ cfg.sync then .error .badSync
    else if writeFlag b2 then .error .badFlag
    else .ok (.frameReadreq b1 (logicalAddr b2) b3)
  | [b0, b1, b2, b3, b4, b5, b6, b7] =>
    if b0 ≠ cfg.sync then .error .badSync
    else if writeFlag b2 then .ok (.frameWrite b1 (logicalAddr b2) (payloadOf b3 b4 b5 b6) b7)
    else .error .badFlag
  | _ => .error .badFrameLength

/-- A frame to the block: always a reply (30_encoding.md R73, R79), whatever its bytes. -/
def decodeToBlock : List Byte → Except DecodeError Instr
  | [b0, b1, b2, b3, b4, b5, b6, b7] =>
    .ok (.frameReply b0 b1 (writeFlag b2) (logicalAddr b2) (payloadOf b3 b4 b5 b6) b7)
  | _ => .error .badFrameLength

/-- What a transfer stands for. -/
def decode (cfg : Config) (t : Transfer) : Except DecodeError Instr :=
  match t.channel with
  | .command => decodeCommand cfg t.bytes
  | .toDevice => decodeToDevice cfg t.bytes
  | .toBlock => decodeToBlock t.bytes

/-- The command code of an operation (30_encoding.md R83); a frame has none and travels on the wire. -/
def Instr.opCode : Instr → Option Nibble
  | .crcInittable _ _ _ => some 0x0
  | .crcCalc _ _ _ => some 0x1
  | .crcCheck _ _ _ => some 0x2
  | .xchg _ _ _ _ => some 0x3
  | .encWrite _ _ _ => some 0x4
  | .encReadreq _ _ => some 0x5
  | .decReply _ _ => some 0x6
  | .wrreg _ _ => some 0x7
  | .rdreg _ => some 0x8
  | .csrrw _ _ => some 0x9
  | .csrr _ => some 0xA
  | .reserved code => some code
  | .frameWrite _ _ _ _ => none
  | .frameReadreq _ _ _ => none
  | .frameReply _ _ _ _ _ _ => none

/-- The bytes that carry an instruction: the operand fields in the order of 30_encoding.md R83 behind the command code, or
the frame of R71 to R73. -/
def encode (cfg : Config) : Instr → Transfer
  | .crcInittable poly reflected index => ⟨.command, [0x00, poly, boolByte reflected, index]⟩
  | .crcCalc data n index => ⟨.command, 0x01 :: data ++ [nibbleByte n, index]⟩
  | .crcCheck data n index => ⟨.command, 0x02 :: data ++ [nibbleByte n, index]⟩
  | .xchg data wl rl timeout =>
    ⟨.command, 0x03 :: data ++ [nibbleByte wl, nibbleByte rl] ++ bytesBE cfg.clockBytes timeout⟩
  | .encWrite slave regAddr value => ⟨.command, [0x04, slave, regAddr] ++ payloadBytes value⟩
  | .encReadreq slave regAddr => ⟨.command, [0x05, slave, regAddr]⟩
  | .decReply data n => ⟨.command, 0x06 :: data.toList ++ [nibbleByte n]⟩
  | .wrreg address value => ⟨.command, [0x07, address] ++ payloadBytes value⟩
  | .rdreg address => ⟨.command, [0x08, address]⟩
  | .csrrw csr value => ⟨.command, [0x09, csr] ++ payloadBytes value⟩
  | .csrr csr => ⟨.command, [0x0A, csr]⟩
  | .reserved code => ⟨.command, [nibbleByte code]⟩
  | .frameWrite slave regAddr value checksum =>
    ⟨.toDevice, writeBody cfg.sync slave regAddr value ++ [checksum]⟩
  | .frameReadreq slave regAddr checksum => ⟨.toDevice, readreqBody cfg.sync slave regAddr ++ [checksum]⟩
  | .frameReply byte0 byte1 flag regAddr value checksum =>
    ⟨.toBlock, replyBody byte0 byte1 flag regAddr value ++ [checksum]⟩

/-- The bytes of the longest port image: XCHG's, of a code, MAX_XFER byte lines, two lengths and a timeout. -/
def portBytes (cfg : Config) : Nat := 3 + cfg.maxXfer + cfg.clockBytes

/-- The transfer that a word of the opcode table stands for (log 25). A row of 32 or 64 bits is a frame, numbered as one
number with the first byte leftmost; a 64-bit word that does not match FRAME.WRITE is a reply. Any other row is a port image
whose first byte is the lowest, every operand bit above the row's being 0. -/
def tableTransfer (cfg : Config) (nbits w : Nat) : Transfer :=
  if nbits = 32 then ⟨.toDevice, bytesBE 4 w⟩
  else if nbits = 64 then
    match decodeToDevice cfg (bytesBE 8 w) with
    | .ok _ => ⟨.toDevice, bytesBE 8 w⟩
    | .error _ => ⟨.toBlock, bytesBE 8 w⟩
  else ⟨.command, bytesLE (portBytes cfg) (w % 2 ^ nbits)⟩

/-- The instruction the decoder reads from a word of the opcode table. -/
def decodeTableWord (nbits w : Nat) : Option Instr :=
  match decode Config.default (tableTransfer Config.default nbits w) with
  | .ok i => some i
  | .error _ => none

end Sys2Proof
end

