-- ==== Sys2Proof/Machine/State.lean ====
section
/-! DEFINITION. The machine's state as plain data (spec/10_state.md), the reasons a step can stop, and the state after reset
(10_state.md R36). -/

namespace Sys2Proof.Machine

/-- XSTATE (10_state.md R12). -/
inductive XState where
  /-- no exchange in flight -/
  | idle
  /-- about to clear the receive buffer -/
  | clear
  /-- about to hand the bytes to the bus -/
  | write
  /-- waiting for the settling delay -/
  | settle
  /-- polling the receive buffer -/
  | poll
  deriving DecidableEq, Repr

/-- CUR_OP: which multi-step operation owns the exchange in flight (10_state.md R12). -/
inductive CurOp where
  | none
  | xchg
  | wrreg
  | rdreg
  deriving DecidableEq, Repr

/-- RESULT, the outcome of the last completed multi-step operation (10_state.md R18). -/
inductive ResultCode where
  | none
  | written
  | received
  | timedOut
  | checksumMismatch
  deriving DecidableEq, Repr

/-- A seeded checksum table with the arguments it was seeded with (10_state.md R22): `T[k]`, `TPOLY[k]`, `TREFL[k]`. -/
structure CrcTable where
  poly : Byte
  reflected : Bool
  entries : Vector Byte 256
  deriving DecidableEq, Repr

/-- The checksum table memory, the block's one memory (10_state.md R22). A table that is not seeded holds no values (R24):
it is `none`, and SEEDED[k] is whether table `k` is there. -/
abbrev Memory := List (Option CrcTable)

/-- What DEC.REPLY returns (43_frame_codec.md R153). -/
inductive ReplyResult where
  | ok (regAddr : RegAddr) (value : Word)
  /-- the recoverable error: no address and no value (30_encoding.md R80) -/
  | checksumMismatch
  deriving DecidableEq, Repr

/-- One transfer of the result port: the result fields of 30_encoding.md R83. CRC.INITTABLE and CSRRW have none (log 15). -/
inductive Response where
  /-- CRC.CALC -/
  | crc (crc : Byte)
  /-- CRC.CHECK -/
  | check (ok : Bool)
  /-- XCHG: the result and, when `Received`, the bytes -/
  | xchg (result : ResultCode) (bytes : List Byte)
  /-- ENC.WRITE, ENC.READREQ -/
  | frame (bytes : List Byte)
  /-- DEC.REPLY -/
  | decoded (reply : ReplyResult)
  /-- WRREG -/
  | wrreg (result : ResultCode)
  /-- RDREG: the value port and the result -/
  | rdreg (value : Word) (result : ResultCode)
  /-- CSRR -/
  | csr (value : Word)
  deriving DecidableEq, Repr

/-- What the host holds at the block's input (60_exceptions.md R216): an operation offered at the command port, or a frame
handed to the serializer (43_frame_codec.md R152; log 6). -/
inductive HostOffer where
  | command (bytes : List Byte)
  | frame (bytes : List Byte)
  deriving DecidableEq, Repr

/-- A move of one of the agents of 10_state.md R10, or a reset from outside (log 3). -/
inductive Event where
  /-- the sequencer has the turn -/
  | sequencer
  /-- the bus environment appends a byte (60_exceptions.md R212) -/
  | byte (b : Byte)
  /-- the bus environment delivers the bytes of a reply frame (log 7) -/
  | arrive (bytes : List Byte)
  /-- the clock advances by `d = more + 1` milliseconds (60_exceptions.md R205; log 26) -/
  | clock (more : Nat)
  /-- reset (10_state.md R36, R37) -/
  | reset
  deriving DecidableEq, Repr

/-- The state: INVENTORY.md lists each field with the rule that names it. A latch that may be unwritten is an `Option`,
because "unwritten" is a state the spec itself gives it (10_state.md R15; log 9). -/
structure State where
  /-- the configuration, which no step changes (00_scope.md R5; log 1) -/
  cfg : Config
  /-- XSTATE -/
  xstate : XState
  /-- CUR_OP -/
  curOp : CurOp
  /-- FB[0..MAX_XFER-1], the frame buffer -/
  fb : List (Option Byte)
  /-- LATCH.WLEN -/
  wlen : Option Nibble
  /-- LATCH.RLEN -/
  rlen : Option Nibble
  /-- LATCH.TMO -/
  tmo : Option Nat
  /-- LATCH.TS -/
  ts : Option Nat
  /-- LATCH.TP -/
  tp : Option Nat
  /-- LATCH.ADDR -/
  addr : Option RegAddr
  /-- RB[0..MAX_XFER-1], the receive latch -/
  rb : List (Option Byte)
  /-- RB_LEN -/
  rbLen : Option Nibble
  /-- RESULT -/
  result : ResultCode
  /-- RDATA -/
  rdata : Option Word
  /-- CSR[SLAVE_ADDR] -/
  slaveAddr : Byte
  /-- the checksum table memory, with TPOLY, TREFL and SEEDED -/
  tables : Memory
  /-- RXBUF, oldest byte first (outside the block) -/
  rxbuf : List Byte
  /-- NOW (outside the block) -/
  now : Nat
  /-- what `transmit` was given, oldest first (outside the block; log 18) -/
  line : List (List Byte)
  /-- what the result port delivered, oldest first (the host's side; log 18) -/
  results : List Response
  /-- what the host offers, the head standing at the port (the host's side; log 5) -/
  offers : List HostOffer
  /-- the model's own: the agents' next moves (log 3) -/
  schedule : List Event
  /-- the model's own: how many free values have been taken (log 8, log 14) -/
  freeUses : Nat
  deriving DecidableEq, Repr

/-- Why a step faults. The spec names both as faults of the program that issued the operation
(93_implementation_defined.md section 2). -/
inductive Fault where
  /-- An operation needs a checksum from a table that is not seeded. Raised by CRC.CALC, CRC.CHECK, ENC.WRITE, ENC.READREQ,
  DEC.REPLY, WRREG and RDREG (41_checksum.md R103, U6). Safe: the block refuses the operation and changes nothing. -/
  | crcTableUnseeded
  /-- A latch that nothing has written since reset is read by the host. Raised by CSRR alone, because the spec says so (10_state.md
  R15, 44_register_engine.md R175, 93_implementation_defined.md U21). Safe: no value is made up. -/
  | readOfUnwritten
  deriving DecidableEq, Repr

/-- Why a step is refused (60_exceptions.md R193, R7 of 00_scope.md: the block does not accept the operation, nothing
changes). -/
inductive Refusal where
  /-- An instruction with no meaning yet. Raised by no arm of this model. Safe. -/
  | notModelled (mnemonic : String)
  /-- An operation is executed while XSTATE is not IDLE. `step` never raises it: the offer waits (10_state.md R16, U16; log 17).
  Safe. -/
  | busy
  /-- A command code of 0xB to 0xF (30_encoding.md R85, U17). Safe. -/
  | badOp
  /-- A length the operation does not take: XCHG above MAX_XFER, DEC.REPLY other than 8, CRC.CHECK of 0 bytes
  (20_memory.md R48, R49, 41_checksum.md R106, U18). Safe. -/
  | badLength
  /-- A table index at or above N_CRC_TABLES: CRC.INITTABLE, CRC.CALC, CRC.CHECK (41_checksum.md R102, R104, U19);
  the codec's operations under a configuration that `Config.wf` rules out (log 20). Safe. -/
  | badTableIndex
  /-- CSRRW of a register that is read-only or absent, CSRR of one that is absent (44_register_engine.md R176, U20). Safe. -/
  | badCsr
  /-- What stands at the port decodes to nothing the block can be given. Raised by `step`. Safe (log 23). -/
  | undecodable
  deriving DecidableEq, Repr

/-- The step's and every meaning's answer. -/
abbrev Outcome := Host.Outcome State Fault Refusal

/-- A latch array of `n` bytes that nothing has written. -/
def unwrittenBytes (n : Nat) : List (Option Byte) := List.replicate n none

/-- The table memory after reset: no table is seeded (10_state.md R36). -/
def Memory.reset (n : Nat) : Memory := List.replicate n none

/-- The state right after reset with nothing offered and nothing scheduled (10_state.md R36). RXBUF and NOW are outside the
block and may hold anything then (U26): DESIGN CHOICE, empty and 0 (log 10). -/
def State.reset : State where
  cfg := Config.default
  xstate := .idle
  curOp := .none
  fb := unwrittenBytes Config.default.maxXfer
  wlen := none
  rlen := none
  tmo := none
  ts := none
  tp := none
  addr := none
  rb := unwrittenBytes Config.default.maxXfer
  rbLen := none
  result := .none
  rdata := none
  slaveAddr := Config.default.slaveAddrReset
  tables := Memory.reset Config.default.nCrcTables
  rxbuf := []
  now := 0
  line := []
  results := []
  offers := []
  schedule := []
  freeUses := 0

end Sys2Proof.Machine
end

