-- ==== Sys2Proof/Machine/Ops.lean ====
section
/-! DEFINITION. The named operations on the state that every meaning and every transition is made of: latches, the bus
primitive, the clock, the table memory, the result port, acceptance and completion of an exchange, and reset. The block has
no trap entry and no return (spec/60_exceptions.md R196, R197): what a fault leaves behind is written by `State.complete`. -/

namespace Sys2Proof.Machine

/-! ## Latch arrays -/

/-- `A[0 .. len(bs)-1] <- bs`: the other bytes keep their content (42_transport.md R121, R126). -/
def overlay (bs : List Byte) (a : List (Option Byte)) : List (Option Byte) := bs.map some ++ a.drop bs.length

/-- `A[i]` as the sequencer reads it. Every latch a transition reads was written by the accept step (10_state.md R36), so that the
free value stands only in states no run reaches (log 20). -/
def State.latchByte (s : State) (a : List (Option Byte)) (i : Nat) : Byte :=
  (a[i]?.join).getD (Config.unwrittenByte s.freeUses i)

/-- `A[0 .. n-1]` as the sequencer reads it. -/
def State.latchBytes (s : State) (a : List (Option Byte)) (n : Nat) : List Byte := (List.range n).map (s.latchByte a)

/-- A 4-bit latch as the sequencer reads it (log 20). -/
def State.latchNibble (s : State) (l : Option Nibble) : Nibble := l.getD (Config.unwrittenNibble s.freeUses)

/-- A time latch as the sequencer reads it (log 20). -/
def State.latchClock (s : State) (l : Option Nat) : Nat := l.getD (Config.unwrittenClock s.freeUses)

/-! ## The bus primitive (60_exceptions.md R207) -/

/-- `clearBuffers()` (R208). -/
def State.clearBuffers (s : State) : State := { s with rxbuf := [] }

/-- `transmit(bytes)`: one hand-over of all the bytes, in order; RXBUF is not touched (R209). -/
def State.transmit (s : State) (bytes : List Byte) : State := { s with line := s.line ++ [bytes] }

/-- `bytesAvailable()` (R210). -/
def State.bytesAvailable (s : State) : Nat := s.rxbuf.length

/-- `receive(n)`, the `n` oldest bytes (R211). -/
def State.received (s : State) (n : Nat) : List Byte := s.rxbuf.take n

/-- `receive(n)`, what stays in RXBUF (R211). -/
def State.dropReceived (s : State) (n : Nat) : State := { s with rxbuf := s.rxbuf.drop n }

/-- The bus environment appends a byte (R212). At capacity what RXBUF then holds is a free value, of at most RX_CAP bytes
(log 8). -/
def State.appendByte (s : State) (b : Byte) : State :=
  if s.rxbuf.length < s.cfg.rxCap then { s with rxbuf := s.rxbuf ++ [b] }
  else { s with
    rxbuf := (Config.rxOverflow s.freeUses s.rxbuf b).take s.cfg.rxCap
    freeUses := s.freeUses + 1 }

/-- The bus environment appends several bytes, the first one first (20_memory.md R43). -/
def State.appendBytes : State → List Byte → State
  | s, [] => s
  | s, b :: bs => (s.appendByte b).appendBytes bs

/-! ## The clock (60_exceptions.md R203 to R205) -/

/-- `elapsedSince(t) = (now() - t) mod 2^CLOCK_BITS` (R204). -/
def State.elapsedSince (s : State) (t : Nat) : Nat :=
  (s.now + (s.cfg.clockRange - t % s.cfg.clockRange)) % s.cfg.clockRange

/-- The clock agent advances by `more + 1` milliseconds, modulo `2^CLOCK_BITS` (R205). -/
def State.tick (s : State) (more : Nat) : State := { s with now := (s.now + (more + 1)) % s.cfg.clockRange }

/-! ## The checksum table memory (10_state.md R22 to R24) -/

/-- N_CRC_TABLES: how many tables there are. -/
def State.nCrcTables (s : State) : Nat := s.tables.length

/-- All of table `k` is written in one step (R23). -/
def State.writeTable (s : State) (k : Nat) (t : CrcTable) : State := { s with tables := s.tables.set k (some t) }

/-- What an operation that reads table `k` does: BadTableIndex if there is no such table, CrcTableUnseeded if it is not
seeded, in this order (41_checksum.md R103, R104; 60_exceptions.md R195 (c)). -/
def State.withTable (s : State) (k : Nat) (f : CrcTable → Outcome) : Outcome :=
  match s.tables[k]? with
  | none => .refused .badTableIndex
  | some none => .fault .crcTableUnseeded
  | some (some t) => f t

/-! ## The ports -/

/-- One transfer of the result port (30_encoding.md R84). -/
def State.deliver (s : State) (r : Response) : State := { s with results := s.results ++ [r] }

/-- One transfer of the result port whose value no rule gives: a free value, a fresh one at each use (log 14). -/
def State.deliverFree (s : State) (free : Nat → Response) : State :=
  { s.deliver (free s.freeUses) with freeUses := s.freeUses + 1 }

/-- `cmd_ready == not BUSY`: an operation is taken only when XSTATE is IDLE (10_state.md R16). -/
def State.whenIdle (s : State) (o : Outcome) : Outcome :=
  match s.xstate with
  | .idle => o
  | _ => .refused .busy

/-! ## Exchanges -/

/-- The accept step every exchange begins with: the frame buffer and the length and timeout latches are written, and XSTATE
goes to CLEAR (42_transport.md R121, 44_register_engine.md R171, R172). -/
def State.accept (s : State) (op : CurOp) (bytes : List Byte) (wlen rlen : Nibble) (tmo : Nat) : State :=
  { s with
    fb := overlay bytes s.fb
    wlen := some wlen
    rlen := some rlen
    tmo := some tmo
    curOp := op
    xstate := .clear }

/-- The step an exchange ends with: RESULT, the result port, CUR_OP and XSTATE (42_transport.md R125 to R127). The whole record
of a fault is what this writes (60_exceptions.md R196). -/
def State.complete (s : State) (r : ResultCode) (response : Response) : State :=
  { s.deliver response with result := r, curOp := .none, xstate := .idle }

/-! ## Reset -/

/-- Reset: every latch, register and table of the block as 10_state.md R36 has it, an exchange in flight abandoned with no result
delivered (R37). RXBUF, NOW and everything else outside the block stay as they are. -/
def State.resetBlock (s : State) : State :=
  { s with
    xstate := .idle
    curOp := .none
    fb := unwrittenBytes s.cfg.maxXfer
    wlen := none
    rlen := none
    tmo := none
    ts := none
    tp := none
    addr := none
    rb := unwrittenBytes s.cfg.maxXfer
    rbLen := none
    result := .none
    rdata := none
    slaveAddr := s.cfg.slaveAddrReset
    tables := Memory.reset s.cfg.nCrcTables }

end Sys2Proof.Machine
end

