-- ==== Sys2Proof/Machine/Checksum.lean ====
section
/-! DEFINITION. The checksum engine (spec/41_checksum.md). The algorithm is PRESUMED by the spec itself (U3, U4; log 12). -/

namespace Sys2Proof.Machine

/-- One shift of the table-building loop: `c[7] ? (c << 1) ^ poly : c << 1`, in 8 bits (R102). -/
def crcShift (poly c : Byte) : Byte := if c.getLsbD 7 then (c <<< 1) ^^^ poly else c <<< 1

/-- `repeat k times` (R102). -/
def crcShifts (poly : Byte) : Nat → Byte → Byte
  | 0, c => c
  | k + 1, c => crcShifts poly k (crcShift poly c)

/-- `T[i]` of a table seeded with `poly` and `reflected` (R102). -/
def tableEntry (poly : Byte) (reflected : Bool) (i : Byte) : Byte :=
  if reflected then flip8 (crcShifts poly 8 (flip8 i)) else crcShifts poly 8 i

/-- The table CRC.INITTABLE builds: all 256 entries (R102). -/
def mkTable (poly : Byte) (reflected : Bool) : CrcTable where
  poly := poly
  reflected := reflected
  entries := ⟨⟨(List.range 256).map fun i => tableEntry poly reflected (BitVec.ofNat 8 i)⟩, by simp⟩

/-- `crc_step(k, r, b) = T[k][(r ^ b) & 0xFF]` (R101). -/
def crcStep (t : CrcTable) (r b : Byte) : Byte := t.entries[(r ^^^ b).toNat]'(r ^^^ b).isLt

/-- `checksum(bytes)`: the accumulator starts at 0 and takes one byte after another; reversed at the end for a reflected table
(R104). Defined for any length. -/
def checksum (t : CrcTable) (bytes : List Byte) : Byte :=
  let r := bytes.foldl (crcStep t) 0
  if t.reflected then flip8 r else r

/-- `CRC.CHECK`: the last byte against the checksum of the bytes before it (R106); nothing for no bytes. -/
def checksumMatches (t : CrcTable) (bytes : List Byte) : Bool :=
  bytes.getLast? == some (checksum t bytes.dropLast)

/-! The bit-serial form (R105). -/

/-- One bit of the reflected form: `crc[7] ^ d[0]` decides the exclusive or, then `d >> 1`. -/
def serialBitReflected (poly : Byte) (crc d : Byte) : Byte × Byte :=
  (if (crc.getLsbD 7 ^^ d.getLsbD 0) then (crc <<< 1) ^^^ poly else crc <<< 1, d >>> 1)

/-- `repeat k times` of the reflected form. -/
def serialBitsReflected (poly : Byte) : Nat → Byte → Byte → Byte
  | 0, crc, _ => crc
  | k + 1, crc, d =>
    serialBitsReflected poly k (serialBitReflected poly crc d).1 (serialBitReflected poly crc d).2

/-- The checksum of an engine that has no table and shifts one bit at a time (R105). -/
def serialChecksum (poly : Byte) (reflected : Bool) (bytes : List Byte) : Byte :=
  bytes.foldl (fun crc d =>
    if reflected then serialBitsReflected poly 8 crc d else crcShifts poly 8 (crc ^^^ d)) 0

/-! The canonical form of the table memory (10_state.md R22, R23). -/

/-- A slot of the table memory: unseeded, or what CRC.INITTABLE builds from the polynomial and the flag kept beside it. -/
def slotWf : Option CrcTable → Bool
  | none => true
  | some t => t == mkTable t.poly t.reflected

/-- The table memory has N_CRC_TABLES slots, each of them in its form. -/
def Memory.wf (n : Nat) (m : Memory) : Bool := m.length == n && m.all slotWf

/-! The operations. -/

/-- `CRC.INITTABLE poly, reflected, index` (R102). -/
def execCrcInittable (poly : Byte) (reflected : Bool) (index : Byte) (s : State) : Outcome :=
  s.whenIdle <|
    if s.nCrcTables ≤ index.toNat then .refused .badTableIndex
    else .next (s.writeTable index.toNat (mkTable poly reflected))

/-- `CRC.CALC bytes` with table `index` (R104). Above MAX_XFER the port has no bytes to take and no rule gives the checksum, which
is a free value; the refusals of R104 come first all the same (log 14). -/
def execCrcCalc (data : List Byte) (n : Nibble) (index : Byte) (s : State) : Outcome :=
  s.whenIdle <| s.withTable index.toNat fun t =>
    if n.toNat ≤ s.cfg.maxXfer then .next (s.deliver (.crc (checksum t (data.take n.toNat))))
    else .next (s.deliverFree fun k => .crc (Config.freeCrc k))

/-- `CRC.CHECK bytes` with table `index` (R106): no bytes are refused first. Above MAX_XFER the comparison's value is free
(log 14). -/
def execCrcCheck (data : List Byte) (n : Nibble) (index : Byte) (s : State) : Outcome :=
  s.whenIdle <|
    if n = 0 then .refused .badLength
    else s.withTable index.toNat fun t =>
      if n.toNat ≤ s.cfg.maxXfer then .next (s.deliver (.check (checksumMatches t (data.take n.toNat))))
      else .next (s.deliverFree fun k => .check (Config.freeCheck k))

end Sys2Proof.Machine
end

