-- ==== Sys2Proof/Machine/Codec.lean ====
section
/-! DEFINITION. The frame codec (spec/43_frame_codec.md). -/

namespace Sys2Proof.Machine

/-- A frame is its body and the checksum of all of it (30_encoding.md R77). -/
def withChecksum (t : CrcTable) (body : List Byte) : List Byte := body ++ [checksum t body]

/-- `encodeWrite(slave, regAddr, value)` (R150): bit 7 of `regAddr` is overwritten with 1. -/
def encodeWrite (t : CrcTable) (sync slave regAddr : Byte) (value : Word) : List Byte :=
  withChecksum t (writeBody sync slave (logicalAddr regAddr) value)

/-- `encodeReadRequest(slave, regAddr)` (R151): bit 7 of `regAddr` is overwritten with 0. -/
def encodeReadRequest (t : CrcTable) (sync slave regAddr : Byte) : List Byte :=
  withChecksum t (readreqBody sync slave (logicalAddr regAddr))

/-- `decodeReply(bytes)` on the REPLY_LEN bytes of a reply (R153). Bytes 0 and 1 and bit 7 of byte 2 are under the checksum and
otherwise not examined (R154). -/
def decodeReply (t : CrcTable) (b : Vector Byte 8) : ReplyResult :=
  if checksum t (b.toList.take 7) = b[7] then .ok (logicalAddr b[2]) (payloadOf b[3] b[4] b[5] b[6])
  else .checksumMismatch

/-- `ENC.WRITE slave, regAddr, value` (R150). -/
def execEncWrite (slave regAddr : Byte) (value : Word) (s : State) : Outcome :=
  s.whenIdle <| s.withTable s.cfg.crcIndex fun t =>
    .next (s.deliver (.frame (encodeWrite t s.cfg.sync slave regAddr value)))

/-- `ENC.READREQ slave, regAddr` (R151). -/
def execEncReadreq (slave regAddr : Byte) (s : State) : Outcome :=
  s.whenIdle <| s.withTable s.cfg.crcIndex fun t =>
    .next (s.deliver (.frame (encodeReadRequest t s.cfg.sync slave regAddr)))

/-- `DEC.REPLY bytes` (R153). The length is checked before the table (R153, 60_exceptions.md R195 (c)). -/
def execDecReply (data : Vector Byte 8) (n : Nibble) (s : State) : Outcome :=
  s.whenIdle <|
    if n ≠ Config.replyLen then .refused .badLength
    else s.withTable s.cfg.crcIndex fun t => .next (s.deliver (.decoded (decodeReply t data)))

end Sys2Proof.Machine
end

