-- ==== Sys2Proof/Machine/Frames.lean ====
section
/-! DEFINITION. The rows of the opcode table that are not operations: the refused command codes (spec/30_encoding.md R85) and
the three wire frames (R71 to R73). -/

namespace Sys2Proof.Machine

/-- A command code of 0xB to 0xF: refused, nothing changes (R85). Busy is reported first (60_exceptions.md R195 (c)). -/
def execReserved (_code : Nibble) (s : State) : Outcome := s.whenIdle (.refused .badOp)

/-- A write frame handed to the serializer: the transport's exchange of its bytes with nothing to read, which is what WRREG
comes to once its frame is built (43_frame_codec.md R152, 30_encoding.md R87; log 6). The transport does not look inside the
bytes (42_transport.md R120): the checksum is sent as given, and no table is needed. -/
def execFrameWrite (slave : Byte) (regAddr : RegAddr) (value : Word) (checksum : Byte) (s : State) : Outcome :=
  s.whenIdle <| .next <|
    s.accept .xchg (writeBody s.cfg.sync slave regAddr value ++ [checksum]) Config.writeLen 0 s.cfg.timeoutMs

/-- A read-request frame handed to the serializer: the transport's exchange of its bytes that reads a reply of REPLY_LEN bytes,
which is RDREG before its reply is decoded (43_frame_codec.md R152, 30_encoding.md R87; log 6). -/
def execFrameReadreq (slave : Byte) (regAddr : RegAddr) (checksum : Byte) (s : State) : Outcome :=
  s.whenIdle <| .next <|
    s.accept .xchg (readreqBody s.cfg.sync slave regAddr ++ [checksum]) Config.readreqLen Config.replyLen
      s.cfg.timeoutMs

/-- A reply frame arrives: its bytes enter RXBUF, byte 0 first (20_memory.md R43, 60_exceptions.md R212; log 7). It can arrive
at any moment, with the block idle or busy (10_state.md R31), and nothing is checked then. -/
def execFrameReply (byte0 byte1 : Byte) (flag : Bool) (regAddr : RegAddr) (value : Word) (checksum : Byte)
    (s : State) : Outcome :=
  .next (s.appendBytes (replyBody byte0 byte1 flag regAddr value ++ [checksum]))

end Sys2Proof.Machine
end

