-- ==== Sys2Proof/Machine/Flags.lean ====
section
/-! DEFINITION. The flags and the status views (spec/10_state.md R16 to R19). None of them is stored. -/

namespace Sys2Proof.Machine

/-- XSTATE's code (10_state.md R12). -/
def XState.code : XState → BitVec 3
  | .idle => 0
  | .clear => 1
  | .write => 2
  | .settle => 3
  | .poll => 4

/-- RESULT's code (10_state.md R18). -/
def ResultCode.code : ResultCode → BitVec 3
  | .none => 0
  | .written => 1
  | .received => 2
  | .timedOut => 3
  | .checksumMismatch => 4

/-- BUSY (10_state.md R16). -/
def State.busy (s : State) : Bool := s.xstate != .idle

/-- SEEDED[k] (10_state.md R17); 0 where there is no table `k`. -/
def State.seeded (s : State) (k : Nat) : Bool :=
  match s.tables[k]? with
  | some (some _) => true
  | _ => false

/-- STATUS: bit 0 BUSY, bits 3:1 RESULT, bit 4 SEEDED[CRC_INDEX], bits 7:5 zero (10_state.md R19). -/
def State.status (s : State) : Byte :=
  (BitVec.ofBool s.busy).zeroExtend 8 ||| (s.result.code.zeroExtend 8 <<< 1) |||
    ((BitVec.ofBool (s.seeded s.cfg.crcIndex)).zeroExtend 8 <<< 4)

/-- CRC_CFG[k] of a seeded table: bits 7:0 TPOLY, bit 8 TREFL, bit 9 SEEDED (10_state.md R19). -/
def CrcTable.cfgView (t : CrcTable) : BitVec 10 :=
  t.poly.zeroExtend 10 ||| ((BitVec.ofBool t.reflected).zeroExtend 10 <<< 8) ||| 0x200

end Sys2Proof.Machine
end

