-- ==== Sys2Proof/Machine/RegisterEngine.lean ====
section
/-! DEFINITION. The register engine and the control registers (spec/44_register_engine.md). -/

namespace Sys2Proof.Machine

/-- `WRREG address, value`: the accept step (R171). The exchange then runs by 42_transport.md R122 to R125. -/
def execWrreg (address : Byte) (value : Word) (s : State) : Outcome :=
  s.whenIdle <| s.withTable s.cfg.crcIndex fun t =>
    .next { s.accept .wrreg (encodeWrite t s.cfg.sync s.slaveAddr address value)
              Config.writeLen 0 s.cfg.timeoutMs with addr := some (logicalAddr address) }

/-- `RDREG address`: the accept step (R172). The exchange then runs by 42_transport.md R122 to R128. -/
def execRdreg (address : Byte) (s : State) : Outcome :=
  s.whenIdle <| s.withTable s.cfg.crcIndex fun t =>
    .next { s.accept .rdreg (encodeReadRequest t s.cfg.sync s.slaveAddr address)
              Config.readreqLen Config.replyLen s.cfg.timeoutMs with addr := some (logicalAddr address) }

/-- `CSRRW csr, value`: only SLAVE_ADDR can be written, with bits 7:0 (R174, R176). -/
def execCsrrw (csr : Byte) (value : Word) (s : State) : Outcome :=
  s.whenIdle <|
    if csr = 0 then .next { s with slaveAddr := value.setWidth 8 } else .refused .badCsr

/-- What a read of a control or status register finds. -/
inductive CsrRead where
  | value (w : Word)
  /-- a register that holds no value (10_state.md R15, R175) -/
  | unwritten
  /-- a number 10_state.md R19 does not list (R176) -/
  | absent
  deriving DecidableEq, Repr

/-- A latch's value, extended with zeros to 32 bits (R175). -/
def csrOfLatch {w : Nat} : Option (BitVec w) → CsrRead
  | some v => .value (v.setWidth 32)
  | none => .unwritten

/-- The register map of 10_state.md R19. -/
def State.readCsr (s : State) (csr : Nat) : CsrRead :=
  if csr = 0 then .value (s.slaveAddr.setWidth 32)
  else if csr = 1 then .value (s.status.setWidth 32)
  else if csr = 2 then csrOfLatch s.rdata
  else if csr = 3 then csrOfLatch s.rbLen
  else if csr < 12 then csrOfLatch (s.rb[csr - 4]?.join)
  else
    match s.tables[csr - 12]? with
    | none => .absent
    | some none => .unwritten
    | some (some t) => .value (t.cfgView.setWidth 32)

/-- `CSRR csr` (R175, R176). -/
def execCsrr (csr : Byte) (s : State) : Outcome :=
  s.whenIdle <|
    match s.readCsr csr.toNat with
    | .value w => .next (s.deliver (.csr w))
    | .unwritten => .fault .readOfUnwritten
    | .absent => .refused .badCsr

end Sys2Proof.Machine
end

