-- ==== Sys2Proof/Machine/Transport.lean ====
section
/-! DEFINITION. The half-duplex transport and its timeout state machine (spec/42_transport.md): the accept step of XCHG and
one function for each state of XSTATE, made of the rules of its transitions. A turn in which no rule is enabled changes
nothing (R124, R128; log 16). -/

namespace Sys2Proof.Machine

/-- `XCHG data, writeLength, readLength, timeoutMs`: accept (R120, R121; 20_memory.md R49). -/
def execXchg (data : List Byte) (writeLength readLength : Nibble) (timeoutMs : Nat) (s : State) : Outcome :=
  s.whenIdle <|
    if s.cfg.maxXfer < writeLength.toNat ∨ s.cfg.maxXfer < readLength.toNat then .refused .badLength
    else .next (s.accept .xchg (data.take writeLength.toNat) writeLength readLength timeoutMs)

/-- Clear, `CLEAR -> WRITE` (R122). -/
def turnClear (s : State) : Outcome := .next { s.clearBuffers with xstate := .write }

/-- Write, `WRITE -> SETTLE` (R123). -/
def turnWrite (s : State) : Outcome :=
  .next { s.transmit (s.latchBytes s.fb (s.latchNibble s.wlen).toNat) with ts := some s.now, xstate := .settle }

/-- The result of an exchange with nothing to read, for the operation it belongs to (R125, 44_register_engine.md R171). -/
def writtenResponse : CurOp → Response
  | .wrreg => .wrreg .written
  | _ => .xchg .written []

/-- Settle exit, once the delay is over (R125). -/
def settleExit (s : State) : Outcome :=
  if s.latchNibble s.rlen = 0 then .next (s.complete .written (writtenResponse s.curOp))
  else .next { s with tp := some s.now, xstate := .poll }

/-- Settle: hold (R124) or exit (R125). -/
def turnSettle (s : State) : Outcome :=
  if s.elapsedSince (s.latchClock s.ts) < s.cfg.settleMs then .next s else settleExit s

/-- RB and RB_LEN take the oldest bytes of RXBUF, the rest stays (R126). -/
def State.takeReply (s : State) (rlen : Nibble) : State :=
  { s.dropReceived rlen.toNat with
    rb := overlay (s.received rlen.toNat) s.rb
    rbLen := some rlen }

/-- RDREG's end with a value or the sentinel: RDATA and RESULT (44_register_engine.md R172). -/
def State.completeRdreg (s : State) (value : Word) (r : ResultCode) : State :=
  { s with rdata := some value }.complete r (.rdreg value r)

/-- The REPLY_LEN bytes of the receive latch that RDREG decodes, `RB[0..7]` (44_register_engine.md R172). -/
def State.replyBytes (s : State) : Vector Byte 8 := Vector.ofFn fun i => s.latchByte s.rb i

/-- What RDREG makes of the reply in RB: the value, or the sentinel with ChecksumMismatch (44_register_engine.md R172,
R177). -/
def finishRdreg (s : State) : Outcome :=
  s.withTable s.cfg.crcIndex fun t =>
    match decodeReply t s.replyBytes with
    | .ok _ v => .next (s.completeRdreg v .received)
    | .checksumMismatch => .next (s.completeRdreg s.cfg.staleSentinel .checksumMismatch)

/-- Poll, reply complete (R126). -/
def pollComplete (s : State) (rlen : Nibble) : Outcome :=
  match s.curOp with
  | .rdreg => finishRdreg (s.takeReply rlen)
  | _ => .next ((s.takeReply rlen).complete .received (.xchg .received (s.received rlen.toNat)))

/-- Poll, timeout (R127): nothing is received. -/
def pollTimeout (s : State) : Outcome :=
  match s.curOp with
  | .rdreg => .next (s.completeRdreg s.cfg.staleSentinel .timedOut)
  | _ => .next (s.complete .timedOut (.xchg .timedOut []))

/-- Poll: the reply is tested first and the clock second (R126, R127, R128, R130). -/
def turnPoll (s : State) : Outcome :=
  if (s.latchNibble s.rlen).toNat ≤ s.bytesAvailable then pollComplete s (s.latchNibble s.rlen)
  else if s.latchClock s.tmo < s.elapsedSince (s.latchClock s.tp) then pollTimeout s
  else .next s

/-- One turn of the sequencer with an exchange in flight (R121 to R128); with none it has nothing to do. -/
def turnBusy (s : State) : Outcome :=
  match s.xstate with
  | .idle => .next s
  | .clear => turnClear s
  | .write => turnWrite s
  | .settle => turnSettle s
  | .poll => turnPoll s

end Sys2Proof.Machine
end

