-- ==== Sys2Proof/Machine/Dispatch.lean ====
section
/-! DEFINITION. The meaning of each instruction, one arm per row of spec/opcode_table.json. -/

namespace Sys2Proof.Machine

def exec (i : Instr) (s : State) : Host.Outcome State Fault Refusal :=
  match i with
  | .crcInittable poly reflected index => Sys2Proof.Machine.execCrcInittable poly reflected index s
  | .crcCalc data n index => Sys2Proof.Machine.execCrcCalc data n index s
  | .crcCheck data n index => Sys2Proof.Machine.execCrcCheck data n index s
  | .xchg data wl rl tmo => Sys2Proof.Machine.execXchg data wl rl tmo s
  | .encWrite slave regAddr value => Sys2Proof.Machine.execEncWrite slave regAddr value s
  | .encReadreq slave regAddr => Sys2Proof.Machine.execEncReadreq slave regAddr s
  | .decReply data n => Sys2Proof.Machine.execDecReply data n s
  | .wrreg address value => Sys2Proof.Machine.execWrreg address value s
  | .rdreg address => Sys2Proof.Machine.execRdreg address s
  | .csrrw csr value => Sys2Proof.Machine.execCsrrw csr value s
  | .csrr csr => Sys2Proof.Machine.execCsrr csr s
  | .reserved code => Sys2Proof.Machine.execReserved code s
  | .frameWrite slave regAddr value crc => Sys2Proof.Machine.execFrameWrite slave regAddr value crc s
  | .frameReadreq slave regAddr crc => Sys2Proof.Machine.execFrameReadreq slave regAddr crc s
  | .frameReply b0 b1 flag regAddr value crc => Sys2Proof.Machine.execFrameReply b0 b1 flag regAddr value crc s

end Sys2Proof.Machine
end

