-- ==== Sys2Proof/Machine/Fetch.lean ====
section
/-! DEFINITION. What comes next: an outside event, a turn of the sequencer on the exchange in flight, or an instruction taken
from the command port or from the wire (spec/10_state.md R10, R12, R16). The block has no program counter; an instruction
comes from the host's offers or arrives on the wire. -/

namespace Sys2Proof.Machine

/-- What a step does: an instruction runs on a state, or the outcome is already there. -/
inductive Action where
  | run (i : Instr) (s : State)
  | done (o : Outcome)

/-- The transfer an offer is. -/
def HostOffer.transfer : HostOffer → Transfer
  | .command bytes => ⟨.command, bytes⟩
  | .frame bytes => ⟨.toDevice, bytes⟩

/-- A transfer that comes in is the instruction it decodes to; one that decodes to none is refused by the step (log 23). -/
def takeTransfer (t : Transfer) (s : State) : Action :=
  match decode s.cfg t with
  | .ok i => .run i s
  | .error _ => .done (.refused .undecodable)

/-- The sequencer's turn. Idle, it takes the offer that stands at the port, or does nothing if there is none
(60_exceptions.md R215); busy, it leaves the offers waiting and goes on with the exchange (10_state.md R16, U16). -/
def sequencerTurn (s : State) : Action :=
  match s.xstate, s.offers with
  | .idle, [] => .done (.next s)
  | .idle, o :: rest => takeTransfer o.transfer { s with offers := rest }
  | _, _ => .done (turnBusy s)

/-- The next move: the schedule's, or the sequencer's where nothing is scheduled (log 3). -/
def nextAction (s : State) : Action :=
  match s.schedule with
  | [] => sequencerTurn s
  | .sequencer :: rest => sequencerTurn { s with schedule := rest }
  | .byte b :: rest => .done (.next ({ s with schedule := rest }.appendByte b))
  | .arrive bytes :: rest => takeTransfer ⟨.toBlock, bytes⟩ { s with schedule := rest }
  | .clock more :: rest => .done (.next ({ s with schedule := rest }.tick more))
  | .reset :: rest => .done (.next { s with schedule := rest }.resetBlock)

/-- `s` with a transfer where the next step takes it from: a reply frame on the wire, anything else at the port with the block
idle and the sequencer's turn next. -/
def State.withTransfer (s : State) (t : Transfer) : State :=
  match t.channel with
  | .toBlock => { s with schedule := .arrive t.bytes :: s.schedule }
  | .command =>
    { s with
      xstate := .idle, curOp := .none
      offers := .command t.bytes :: s.offers, schedule := .sequencer :: s.schedule }
  | .toDevice =>
    { s with
      xstate := .idle, curOp := .none
      offers := .frame t.bytes :: s.offers, schedule := .sequencer :: s.schedule }

end Sys2Proof.Machine
end

