-- ==== Sys2Proof/Machine/Step.lean ====
section
/-! DEFINITION. The machine's step. -/

namespace Sys2Proof.Machine

/-- One step: the next agent's move (spec/10_state.md R10). -/
def step (s : State) : Host.Outcome State Fault Refusal :=
  match nextAction s with
  | .run i s' => exec i s'
  | .done o => o

/-- `s` with a word of the opcode table where the next step takes its instruction from (log 24). -/
def State.withFetchWord (s : State) (nbits w : Nat) : State := s.withTransfer (tableTransfer s.cfg nbits w)

end Sys2Proof.Machine
end

