-- ==== Sys2Proof/Safety.lean ====
section
/-! DEFINITION. What a safe state is, in the terms the statements use: the invariant every step keeps. -/

namespace Sys2Proof.Machine

/-- The first `n` bytes of a latch array are there and written (10_state.md R15). -/
abbrev written (n : Nat) (a : List (Option Byte)) : Prop := ∀ i < n, (a[i]?.join).isSome = true

/-- The in-flight exchange holds together (spec/10_state.md R14, R35; 42_transport.md R121; 44_register_engine.md R171, R172): the
latches its states read are written, and WRREG and RDREG have the lengths their accept steps give them. -/
structure State.InFlight (s : State) (wl rl : Nibble) (tm : Nat) : Prop where
  wlen : s.wlen = some wl
  rlen : s.rlen = some rl
  tmo : s.tmo = some tm
  wlen_le : wl.toNat ≤ s.cfg.maxXfer
  rlen_le : rl.toNat ≤ s.cfg.maxXfer
  /-- the bytes to transmit are in FB -/
  frame : written wl.toNat s.fb
  /-- SETTLE and POLL have their clock readings -/
  settle : s.xstate = .settle → s.ts.isSome
  poll : s.xstate = .poll → s.tp.isSome ∧ rl ≠ 0
  wrreg : s.curOp = .wrreg → wl = Config.writeLen ∧ rl = 0 ∧ tm = s.cfg.timeoutMs ∧ s.addr.isSome
  rdreg : s.curOp = .rdreg → wl = Config.readreqLen ∧ rl = Config.replyLen ∧ tm = s.cfg.timeoutMs ∧ s.addr.isSome ∧
    s.seeded s.cfg.crcIndex = true

/-- The invariant. -/
structure State.Inv (s : State) : Prop where
  /-- the parameters fit together -/
  cfg : s.cfg.wf
  /-- FB and RB have MAX_XFER bytes (10_state.md R14) -/
  size : s.fb.length = s.cfg.maxXfer ∧ s.rb.length = s.cfg.maxXfer
  /-- NOW and the time latches are numbers of CLOCK_BITS bits (10_state.md R14, R32) -/
  now : s.now < s.cfg.clockRange
  times : ∀ t, s.tmo = some t ∨ s.ts = some t ∨ s.tp = some t → t < s.cfg.clockRange
  /-- the table memory keeps its canonical form (10_state.md R22, R23) -/
  tables : Memory.wf s.cfg.nCrcTables s.tables = true
  /-- RXBUF never exceeds RX_CAP (10_state.md R31) -/
  rxbuf : s.rxbuf.length ≤ s.cfg.rxCap
  /-- `CUR_OP == NONE` exactly when `XSTATE == IDLE` (10_state.md R12) -/
  owner : s.curOp = .none ↔ s.xstate = .idle
  flight : s.xstate ≠ .idle → ∃ wl rl tm, s.InFlight wl rl tm
  /-- RB_LEN counts written bytes of RB (10_state.md R14, R15) -/
  reply : ∀ n, s.rbLen = some n → n.toNat ≤ s.cfg.maxXfer ∧ written n.toNat s.rb
  noReply : s.rbLen = none → s.rb = unwrittenBytes s.cfg.maxXfer
  /-- what a ChecksumMismatch leaves behind (60_exceptions.md R190) -/
  mismatch : s.result = .checksumMismatch → s.rbLen = some Config.replyLen ∧ s.rdata = some s.cfg.staleSentinel

/-- The sequencer has the turn, and `rest` is what is scheduled after it. -/
def State.sequencerNext (s : State) (rest : List Event) : Prop :=
  s.schedule = .sequencer :: rest ∨ s.schedule = [] ∧ rest = []

/-- The next move is a turn of the sequencer on the exchange in flight, and a rule other than the hold of SETTLE and the wait of
POLL is enabled: always in CLEAR and WRITE (42_transport.md R122, R123), in SETTLE once the clock reads SETTLE_MS or more since TS
(R125), in POLL with a complete reply (R126) or once it reads more than TMO since TP (R127). -/
def State.turnDue (s : State) : Bool :=
  (match s.schedule with
    | [] | .sequencer :: _ => true
    | _ => false) &&
  (match s.xstate with
    | .idle => false
    | .clear | .write => true
    | .settle => s.ts.any fun ts => s.cfg.settleMs ≤ s.elapsedSince ts
    | .poll =>
      (s.rlen.any fun rl => rl.toNat ≤ s.rxbuf.length) ||
        (s.tmo.any fun tmo => s.tp.any fun tp => tmo < s.elapsedSince tp))

/-- How many of the next `k` steps are due turns. -/
def State.dueTurns : Nat → State → Nat
  | 0, _ => 0
  | k + 1, s =>
    (if s.turnDue then 1 else 0) +
      match step s with
      | .next s' => s'.dueTurns k
      | _ => 0

/-- Bit `i` of a byte sequence is flipped, bit `8*k + j` being bit `j` of byte `k`. -/
def flipBit (i : Nat) (bytes : List Byte) : List Byte :=
  bytes.modify (i / 8) fun b => b ^^^ BitVec.ofNat 8 (2 ^ (i % 8))

/-- Byte-wise exclusive or of two sequences (41_checksum.md R109). -/
def xorBytes (a b : List Byte) : List Byte := List.zipWith (· ^^^ ·) a b

end Sys2Proof.Machine
end

