-- ==== Sys2Proof/Certificates/Slice0/Obligations.lean ====
section
/-! DEFINITION. The statements for the provers. Each docstring names the rule of spec/ it formalises. A statement of the form
`exec i s = .next (…)` with the whole next state written out says the result, that the operation completes, and that everything
not named in the record update is unchanged. -/

open Sys2Proof Sys2Proof.Machine

/-! ## Encoding -/

/-- Decoding the encoding of a well-formed instruction gives it back, whatever stands on the port's lines behind a command
(30_encoding.md R71 to R73, R83). The byte image of the port is the model's choice (log 4). -/
def Obligations.DecodeUndoesEncode : Prop :=
  ∀ (cfg : Config) (i : Instr), i.wf cfg = true →
    decode cfg (encode cfg i) = .ok i ∧
    ((encode cfg i).channel = .command →
      ∀ rest, decode cfg ⟨.command, (encode cfg i).bytes ++ rest⟩ = .ok i)

/-- What decodes is well formed, and its encoding is what was decoded: all of a frame (30_encoding.md R82: no reserved bits), the
lines in use of a port image (the model's own image, log 4). -/
def Obligations.EncodeUndoesDecode : Prop :=
  ∀ (cfg : Config) (t : Transfer) (i : Instr), decode cfg t = .ok i →
    i.wf cfg = true ∧ (encode cfg i).channel = t.channel ∧ (encode cfg i).bytes <+: t.bytes ∧
    (t.channel ≠ .command → (encode cfg i).bytes = t.bytes)

/-- A sanity check of the decoder on words written out from 30_encoding.md R71 to R73, R83 and 95_test_vectors.md 3.1 to 3.3.
How a port image is numbered is the MODEL's choice (log 4, log 25). -/
def Obligations.SampleWordsDecode : Prop :=
  decodeTableWord 8 0x00 = some (.crcInittable 0 false 0) ∧
  decodeTableWord 8 0x09 = some (.csrrw 0 0) ∧
  decodeTableWord 8 0x0A = some (.csrr 0) ∧
  decodeTableWord 8 0x0B = some (.reserved 0xB) ∧
  decodeTableWord 64 0x050090000717033B = some (.frameWrite 0x00 0x10 0x00071703 0x3B) ∧
  decodeTableWord 32 0x0500066F = some (.frameReadreq 0x00 0x06 0x6F) ∧
  decodeTableWord 64 0x05FF0620000140C8 = some (.frameReply 0x05 0xFF false 0x06 0x20000140 0xC8) ∧
  decode Config.default ⟨.command, [0x07, 0x22, 0xFF, 0xFF, 0xFE, 0x0C]⟩ = .ok (.wrreg 0x22 (u32 (-500)))

/-- Command codes 0xB to 0xF stand for no operation: whatever the operand lines hold they are refused BadOp (30_encoding.md R85).
A refusal has no next state: nothing changes and nothing is delivered. That the code stands in the low bits of the first byte of a
port image, the operand bytes behind it, is the MODEL's choice (log 4). -/
def Obligations.ReservedCodesAreRefused : Prop :=
  ∀ (cfg : Config) (code : Nibble) (ops : List Byte) (s : State), 0xB ≤ code.toNat →
    decode cfg ⟨.command, code.zeroExtend 8 :: ops⟩ = .ok (.reserved code) ∧
    (s.xstate = .idle → exec (.reserved code) s = .refused .badOp)

/-! ## The step -/

/-- On the sequencer's turn, with the block idle, the offer at the port is taken and the instruction it decodes to is run, on the
state without the offer and the turn (10_state.md R10, R12, R16; log 3, log 5). -/
def Obligations.StepRunsTheOffer : Prop :=
  ∀ (s : State) (rest : List Event) (o : HostOffer) (os : List HostOffer) (i : Instr),
    s.sequencerNext rest → s.xstate = .idle → s.offers = o :: os → decode s.cfg o.transfer = .ok i →
    step s = exec i { s with offers := os, schedule := rest }

/-- A reply frame on the wire is run whatever the block is doing (10_state.md R31; log 7). -/
def Obligations.StepRunsTheArrivingFrame : Prop :=
  ∀ (s : State) (rest : List Event) (bytes : List Byte) (i : Instr),
    s.schedule = .arrive bytes :: rest → decode s.cfg ⟨.toBlock, bytes⟩ = .ok i →
    step s = exec i { s with schedule := rest }

/-- `withFetchWord` puts the instruction of a table word where the next step takes it from (log 24). -/
def Obligations.FetchWordIsRunNext : Prop :=
  ∀ (s : State) (nbits w : Nat) (i : Instr), decode s.cfg (tableTransfer s.cfg nbits w) = .ok i →
    step (s.withFetchWord nbits w) =
      exec i (match (tableTransfer s.cfg nbits w).channel with
        | .toBlock => s
        | _ => { s with xstate := .idle, curOp := .none })

/-- BUSY is that XSTATE is not IDLE; while BUSY no step takes an offer; not BUSY, the sequencer's turn takes it (10_state.md
R16). -/
def Obligations.OffersWaitWhileBusy : Prop :=
  (∀ s : State, s.busy = true ↔ s.xstate ≠ .idle) ∧
  (∀ s s' : State, s.busy = true → step s = .next s' → s'.offers = s.offers) ∧
  (∀ (s : State) (rest : List Event) (o : HostOffer) (os : List HostOffer) (i : Instr) (s' : State),
    s.busy = false → s.sequencerNext rest → s.offers = o :: os → decode s.cfg o.transfer = .ok i →
    step s = .next s' → s'.offers = os)

/-- Every operation offered to `exec` while BUSY is turned away as Busy, before any other reason (60_exceptions.md R193, R195
(c)); a reply frame arrives all the same. That `exec` answers a refusal there, while `step` lets the offer wait, is the MODEL's
reading (log 17); that the two frames to the device are turned away like operations is its choice (log 6). -/
def Obligations.BusyIsReportedFirst : Prop :=
  ∀ (s : State) (i : Instr), s.xstate ≠ .idle →
    (∀ b0 b1 f a v c, i ≠ .frameReply b0 b1 f a v c) → exec i s = .refused .busy

/-- While idle with nothing offered the block does nothing (60_exceptions.md R215; log 16). -/
def Obligations.IdleBlockDoesNothing : Prop :=
  ∀ (s : State) (rest : List Event), s.sequencerNext rest → s.xstate = .idle → s.offers = [] →
    step s = .next { s with schedule := rest }

/-- The clock agent's step (60_exceptions.md R205) and elapsed time (R204): NOW moves by `d >= 1` milliseconds modulo 2^CLOCK_BITS
and nothing else does, and elapsed time is the difference modulo 2^CLOCK_BITS. How a move is written is the model's (log 26). -/
def Obligations.ClockAdvances : Prop :=
  (∀ (s : State) (d : Nat) (rest : List Event), 1 ≤ d → s.schedule = .clock (d - 1) :: rest →
    step s = .next { s with schedule := rest, now := (s.now + d) % 2 ^ s.cfg.clockBits }) ∧
  (∀ (s : State) (t : Nat), (s.elapsedSince t : Int) = ((s.now : Int) - (t : Int)) % 2 ^ s.cfg.clockBits)

/-- The bus environment's step (60_exceptions.md R212): below RX_CAP the byte is appended and nothing else changes; at RX_CAP the
step goes on, RXBUF stays within RX_CAP and nothing of the block changes (what it then holds is a free value, log 8). -/
def Obligations.ByteArrives : Prop :=
  ∀ (s : State) (b : Byte) (rest : List Event), s.schedule = .byte b :: rest →
    (s.rxbuf.length < s.cfg.rxCap → step s = .next { s with schedule := rest, rxbuf := s.rxbuf ++ [b] }) ∧
    (s.cfg.rxCap ≤ s.rxbuf.length → ∃ buf : List Byte, buf.length ≤ s.cfg.rxCap ∧
      step s = .next { s with schedule := rest, rxbuf := buf, freeUses := s.freeUses + 1 })

/-- RX_CAP is an argument of the model, at least REPLY_LEN (00_scope.md R5): it is so in State.reset; whatever its value, a reply that
enters an empty receive buffer of such a capacity is held whole and in order; and every capacity of REPLY_LEN or more is that of some
configuration whose parameters fit together. -/
def Obligations.ReplyFitsTheBuffer : Prop :=
  Config.replyLen.toNat ≤ State.reset.cfg.rxCap ∧
  (∀ (s : State) (reply : List Byte), Config.replyLen.toNat ≤ s.cfg.rxCap → s.rxbuf = [] →
    reply.length = Config.replyLen.toNat → s.appendBytes reply = { s with rxbuf := reply }) ∧
  (∀ cap : Nat, Config.replyLen.toNat ≤ cap → ∃ c : Config, c.wf ∧ c.rxCap = cap)

/-! ## Reset -/

/-- The values after reset (10_state.md R36), RXBUF and NOW excepted, which R36 leaves open. The clauses that name `Config.default`
or SLAVE_ADDR_RESET = 0 are about the defaults the spec presumes (log 11). -/
def Obligations.ResetValues : Prop :=
  State.reset.xstate = .idle ∧ State.reset.curOp = .none ∧ State.reset.busy = false ∧ State.reset.result = .none ∧
  (∀ k, State.reset.seeded k = false) ∧ (∀ k, State.reset.tables[k]? = some none ↔ k < Config.default.nCrcTables) ∧
  State.reset.slaveAddr = State.reset.cfg.slaveAddrReset ∧ Config.default.slaveAddrReset = 0 ∧
  (∀ i, i < Config.default.maxXfer → State.reset.fb[i]? = some none ∧ State.reset.rb[i]? = some none) ∧
  State.reset.wlen = none ∧ State.reset.rlen = none ∧ State.reset.tmo = none ∧ State.reset.ts = none ∧
  State.reset.tp = none ∧ State.reset.addr = none ∧ State.reset.rbLen = none ∧ State.reset.rdata = none

/-- Reset at any moment, an exchange in flight included (10_state.md R37): XSTATE goes to IDLE, no result is delivered, RESULT
goes to None, bytes already handed over stay handed over and RXBUF stays; the block is as after reset. That
everything outside it, not RXBUF alone, is as before is the MODEL's reading (log 22). -/
def Obligations.ResetAbandonsTheExchange : Prop :=
  ∀ (s : State) (rest : List Event), s.schedule = .reset :: rest →
    step s = .next { State.reset with
      cfg := s.cfg, slaveAddr := s.cfg.slaveAddrReset, tables := List.replicate s.cfg.nCrcTables none,
      fb := List.replicate s.cfg.maxXfer none, rb := List.replicate s.cfg.maxXfer none,
      rxbuf := s.rxbuf, now := s.now, line := s.line, results := s.results, offers := s.offers,
      schedule := rest, freeUses := s.freeUses }

/-- The state after reset meets the invariant. -/
def Obligations.ResetMeetsTheInvariant : Prop := State.reset.Inv

/-- Every step keeps the invariant: the table memory's canonical form (10_state.md R22, R23), RXBUF within RX_CAP (R31), CUR_OP
NONE exactly when XSTATE is IDLE (R12), FB and RB of MAX_XFER bytes, NOW and the time latches within CLOCK_BITS (R14, R32), the
latches of an exchange in flight written and its lengths those of its operation (R14, 42_transport.md R121, 44_register_engine.md
R171, R172), RB_LEN counting written bytes (R15), and what a ChecksumMismatch leaves behind (60_exceptions.md R190). -/
def Obligations.StepKeepsTheInvariant : Prop :=
  ∀ s s' : State, s.Inv → step s = .next s' → s'.Inv

/-- In a state of the invariant the sequencer's turn on an exchange in flight always answers a next state: no fault is ever fatal
(60_exceptions.md R192, R196). -/
def Obligations.ExchangeNeverGetsStuck : Prop :=
  ∀ (s : State) (rest : List Event), s.Inv → s.xstate ≠ .idle → s.sequencerNext rest →
    ∃ s', step s = .next s'

/-- An exchange ends if the clock goes on (42_transport.md R133), under EVERY schedule of turns, clock moves, arriving bytes and
resets: from a state of the invariant with an exchange in flight, once four turns have been due the block has been IDLE. A turn is
due (`State.turnDue`) in CLEAR and in WRITE, in SETTLE when the clock reads SETTLE_MS or more since TS, and in POLL when it reads
more than TMO since TP or the reply is complete. -/
def Obligations.ExchangeEndsIfTheClockRuns : Prop :=
  ∀ (s : State) (k : Nat), s.Inv → s.xstate ≠ .idle → 4 ≤ s.dueTurns k →
    ∃ (j : Nat) (s' : State), j ≤ k ∧ core.run j s = .next s' ∧ s'.xstate = .idle

/-! ## Rules about the whole machine -/

/-- No step changes the configuration (00_scope.md R5, 10_state.md R11; log 1). -/
def Obligations.ConfigurationIsFixed : Prop :=
  ∀ s s' : State, step s = .next s' → s'.cfg = s.cfg

/-- A table is written only by CRC.INITTABLE, whole and in one step, and by reset (10_state.md R23): a step that changes the table
memory is a reset, or a turn of the idle sequencer that took an offer of CRC.INITTABLE. SEEDED is never cleared except by reset
(R17). -/
def Obligations.TablesAreWrittenOnlyBySeeding : Prop :=
  (∀ s s' : State, step s = .next s' → s'.tables ≠ s.tables →
    (∃ rest, s.schedule = .reset :: rest) ∨
    ∃ (rest : List Event) (o : HostOffer) (os : List HostOffer) (poly : Byte) (reflected : Bool) (k : Byte),
      s.sequencerNext rest ∧ s.xstate = .idle ∧ s.offers = o :: os ∧
      decode s.cfg o.transfer = .ok (.crcInittable poly reflected k) ∧
      s'.tables = s.tables.set k.toNat (some (mkTable poly reflected))) ∧
  (∀ (i : Instr) (s s' : State), exec i s = .next s' → s'.tables ≠ s.tables →
    ∃ poly reflected k, i = .crcInittable poly reflected k ∧
      s'.tables = s.tables.set k.toNat (some (mkTable poly reflected))) ∧
  (∀ (s s' : State) (k : Nat), step s = .next s' → (∀ rest, s.schedule ≠ .reset :: rest) →
    s.seeded k = true → s'.seeded k = true)

/-- SLAVE_ADDR is written only by CSRRW 0 (10_state.md R20, 44_register_engine.md R174) and by reset: a step that changes it is a
reset, or a turn of the idle sequencer that took an offer of CSRRW 0. -/
def Obligations.SlaveAddrIsWrittenOnlyByCsrrw : Prop :=
  (∀ s s' : State, step s = .next s' → s'.slaveAddr ≠ s.slaveAddr →
    (∃ rest, s.schedule = .reset :: rest) ∨
    ∃ (rest : List Event) (o : HostOffer) (os : List HostOffer) (v : Word),
      s.sequencerNext rest ∧ s.xstate = .idle ∧ s.offers = o :: os ∧
      decode s.cfg o.transfer = .ok (.csrrw 0 v) ∧ s'.slaveAddr = v.setWidth 8) ∧
  (∀ (i : Instr) (s s' : State), exec i s = .next s' → s'.slaveAddr ≠ s.slaveAddr →
    ∃ v : Word, i = .csrrw 0 v ∧ s'.slaveAddr = v.setWidth 8)

/-- A step delivers at most one result (30_encoding.md R84), and hands bytes to the bus only in XSTATE WRITE, in one call
(60_exceptions.md R209). -/
def Obligations.OneResultAndOneTransmitAtMost : Prop :=
  ∀ s s' : State, step s = .next s' →
    (s'.results = s.results ∨ ∃ r, s'.results = s.results ++ [r]) ∧
    (s'.line = s.line ∨ s.xstate = .write ∧ ∃ bytes, s'.line = s.line ++ [bytes])

/-- The block changes RXBUF only by `clearBuffers()` in CLEAR (60_exceptions.md R208) and by `receive(n)` in POLL, which removes the
oldest bytes and never more than there are (R211); so a timed-out exchange leaves its partial reply (70_reset_and_hazards.md
R243). -/
def Obligations.BlockChangesTheBufferOnlyInClearAndPoll : Prop :=
  ∀ (s s' : State) (rest : List Event), s.sequencerNext rest → step s = .next s' →
    s'.rxbuf = s.rxbuf ∨ s.xstate = .clear ∧ s'.rxbuf = [] ∨
      s.xstate = .poll ∧ ∃ n, n ≤ s.rxbuf.length ∧ s'.rxbuf = s.rxbuf.drop n ∧ s'.result ≠ .timedOut

/-! ## The checksum engine -/

/-- `CRC.INITTABLE poly, reflected, index` (41_checksum.md R102): all 256 entries, TPOLY, TREFL and SEEDED of one table; a table
already seeded is overwritten whole; with `poly` 0 every entry is 0; an index that is too large is refused. -/
def Obligations.InittableBuildsTheTable : Prop :=
  ∀ (s : State) (poly : Byte) (reflected : Bool) (index : Byte), s.xstate = .idle →
    let shift : Byte → Byte := fun c => if c.getLsbD 7 then (c <<< 1) ^^^ poly else c <<< 1
    (s.tables.length ≤ index.toNat → exec (.crcInittable poly reflected index) s = .refused .badTableIndex) ∧
    (index.toNat < s.tables.length →
      ∃ t : CrcTable,
        exec (.crcInittable poly reflected index) s =
          .next { s with tables := s.tables.set index.toNat (some t) } ∧
        t.poly = poly ∧ t.reflected = reflected ∧
        (∀ i : Byte, t.entries[i.toNat]'i.isLt = if reflected then flip8 (shift^[8] (flip8 i)) else shift^[8] i) ∧
        (poly = 0 → ∀ i : Byte, t.entries[i.toNat]'i.isLt = 0))

/-- `CRC.CALC bytes` (41_checksum.md R104): the accumulator starts at 0, takes `T[r ^ b]` for each byte, and is reversed at the end
for a reflected table; refusals in the order R104 tests them. Nothing but the result port changes. -/
def Obligations.CalcDeliversTheChecksum : Prop :=
  ∀ (s : State) (data : List Byte) (n : Nibble) (index : Byte), s.xstate = .idle →
    (s.tables[index.toNat]? = none → exec (.crcCalc data n index) s = .refused .badTableIndex) ∧
    (s.tables[index.toNat]? = some none → exec (.crcCalc data n index) s = .fault .crcTableUnseeded) ∧
    (∀ t : CrcTable, s.tables[index.toNat]? = some (some t) → n.toNat ≤ s.cfg.maxXfer →
      let r := (data.take n.toNat).foldl (fun r b => t.entries[(r ^^^ b).toNat]'(r ^^^ b).isLt) 0
      exec (.crcCalc data n index) s =
        .next { s with results := s.results ++ [.crc (if t.reflected then flip8 r else r)] })

/-- On a table memory in its canonical form CRC.CALC delivers what the bit-serial engine of 41_checksum.md R105 computes from TPOLY and
TREFL; leading zero bytes change nothing and zeros alone give 0 (R104). -/
def Obligations.CalcAgreesWithTheSerialEngine : Prop :=
  ∀ (s : State) (m : Nat) (data : List Byte) (n : Nibble) (index : Byte) (t : CrcTable),
    s.xstate = .idle → n.toNat ≤ s.cfg.maxXfer → Memory.wf m s.tables = true → s.tables[index.toNat]? = some (some t) →
    exec (.crcCalc data n index) s =
      .next { s with results := s.results ++ [.crc (serialChecksum t.poly t.reflected (data.take n.toNat))] } ∧
    ∀ k, checksum t (List.replicate k 0 ++ data) = checksum t data ∧ checksum t (List.replicate k 0) = 0

/-- `CRC.CHECK bytes` (41_checksum.md R106): the checksum of bytes 0 to n-2 against byte n-1; no bytes are refused BadLength before
anything else; R104's refusals. -/
def Obligations.CheckComparesTheLastByte : Prop :=
  ∀ (s : State) (data : List Byte) (n : Nibble) (index : Byte), s.xstate = .idle → data.length = s.cfg.maxXfer →
    (n = 0 → exec (.crcCheck data n index) s = .refused .badLength) ∧
    (n ≠ 0 →
      (s.tables[index.toNat]? = none → exec (.crcCheck data n index) s = .refused .badTableIndex) ∧
      (s.tables[index.toNat]? = some none → exec (.crcCheck data n index) s = .fault .crcTableUnseeded) ∧
      (∀ (t : CrcTable) (last : Byte), s.tables[index.toNat]? = some (some t) → n.toNat ≤ s.cfg.maxXfer →
        data[n.toNat - 1]? = some last →
        exec (.crcCheck data n index) s =
          .next { s with
            results := s.results ++ [.check (decide (checksum t (data.take (n.toNat - 1)) = last))] }))

/-- CRC.CALC and CRC.CHECK with a length above MAX_XFER run on a seeded table: one result is delivered, and only the result port and
the model's own counter change. The MODEL's choice: 41_checksum.md R104 bounds the length at the port and no rule gives the result, so
the value is free (log 14). -/
def Obligations.ChecksumLengthBeyondThePortDeliversAFreeValue : Prop :=
  ∀ (s : State) (data : List Byte) (n : Nibble) (index : Byte) (t : CrcTable), s.xstate = .idle →
    s.tables[index.toNat]? = some (some t) → s.cfg.maxXfer < n.toNat →
    (∃ c : Byte, exec (.crcCalc data n index) s =
      .next { s with results := s.results ++ [.crc c], freeUses := s.freeUses + 1 }) ∧
    (∃ ok : Bool, exec (.crcCheck data n index) s =
      .next { s with results := s.results ++ [.check ok], freeUses := s.freeUses + 1 })

/-- An operation that reads a table that is not seeded is refused CrcTableUnseeded, which a model treats as a fault; for a seeded
table the checksum is always produced (41_checksum.md R103). -/
def Obligations.UnseededTableFaults : Prop :=
  (∀ s : State, s.xstate = .idle → s.tables[s.cfg.crcIndex]? = some none →
    (∀ slave a v, exec (.encWrite slave a v) s = .fault .crcTableUnseeded) ∧
    (∀ slave a, exec (.encReadreq slave a) s = .fault .crcTableUnseeded) ∧
    (∀ data, exec (.decReply data 8) s = .fault .crcTableUnseeded) ∧
    (∀ a v, exec (.wrreg a v) s = .fault .crcTableUnseeded) ∧
    (∀ a, exec (.rdreg a) s = .fault .crcTableUnseeded)) ∧
  (∀ (s : State) (k : Byte) (n : Nibble) (data : List Byte), s.xstate = .idle → s.tables[k.toNat]? = some none →
    exec (.crcCalc data n k) s = .fault .crcTableUnseeded ∧ (n ≠ 0 → exec (.crcCheck data n k) s = .fault .crcTableUnseeded)) ∧
  (∀ (s : State) (k : Byte) (n : Nibble) (data : List Byte), s.xstate = .idle → s.seeded k.toNat = true →
    n.toNat ≤ s.cfg.maxXfer → ∃ c, exec (.crcCalc data n k) s = .next { s with results := s.results ++ [.crc c] })

/-- The bit-serial form is equal to the table form for every input (41_checksum.md R105). -/
def Obligations.SerialFormEqualsTableForm : Prop :=
  ∀ (poly : Byte) (reflected : Bool) (bytes : List Byte),
    checksum (mkTable poly reflected) bytes = serialChecksum poly reflected bytes

/-- The checksum is linear, so whether an alteration is detected depends only on the alteration (41_checksum.md R109). -/
def Obligations.ChecksumIsLinear : Prop :=
  ∀ (poly : Byte) (reflected : Bool) (a b : List Byte), a.length = b.length →
    checksum (mkTable poly reflected) (xorBytes a b) =
      checksum (mkTable poly reflected) a ^^^ checksum (mkTable poly reflected) b ∧
    (checksumMatches (mkTable poly reflected) a = true →
      checksumMatches (mkTable poly reflected) (xorBytes a b) = checksumMatches (mkTable poly reflected) b)

/-- With the default polynomial, reflected, every alteration of one byte of a valid 4- or 8-byte frame and every alteration of one
or two bits of it is detected (41_checksum.md R110). The default polynomial and flag, and the algorithm, are the spec's own
presumption (log 11, log 12). -/
def Obligations.SmallAlterationsAreDetected : Prop :=
  ∀ frame : List Byte, frame.length = 4 ∨ frame.length = 8 →
    checksumMatches (mkTable Config.default.crcPoly Config.default.crcReflected) frame = true →
    (∀ (k : Nat) (b : Byte) (h : k < frame.length), b ≠ frame[k] →
      checksumMatches (mkTable Config.default.crcPoly Config.default.crcReflected) (frame.set k b) = false) ∧
    (∀ i, i < 8 * frame.length →
      checksumMatches (mkTable Config.default.crcPoly Config.default.crcReflected) (flipBit i frame) = false) ∧
    (∀ i j, i < j → j < 8 * frame.length →
      checksumMatches (mkTable Config.default.crcPoly Config.default.crcReflected) (flipBit i (flipBit j frame)) = false)

/-- Residues (41_checksum.md R111): a message with its checksum has checksum 0 for a table that is not reflected; for a reflected one
that is not so, and the checksum must be reversed first. -/
def Obligations.Residues : Prop :=
  (∀ (poly : Byte) (m : List Byte),
    checksum (mkTable poly false) (m ++ [checksum (mkTable poly false) m]) = 0) ∧
  (∀ (poly : Byte) (m : List Byte),
    checksum (mkTable poly true) (m ++ [flip8 (checksum (mkTable poly true) m)]) = 0) ∧
  (∃ (poly : Byte) (m : List Byte), checksum (mkTable poly true) (m ++ [checksum (mkTable poly true) m]) ≠ 0)

/-! ## The codec -/

/-- `u32` and `i32` are inverse bijections between the 32-bit signed values and the words (41_checksum.md R112 (b)). -/
def Obligations.SignedValuesLoseNothing : Prop :=
  (∀ v : Int, -2 ^ 31 ≤ v → v < 2 ^ 31 → ((u32 v).toNat : Int) = v % 2 ^ 32 ∧ i32 (u32 v) = v) ∧
  (∀ w : Word, u32 (i32 w) = w ∧
    i32 w = if w.toNat < 2 ^ 31 then (w.toNat : Int) else (w.toNat : Int) - 2 ^ 32)

/-- `ENC.WRITE slave, regAddr, value` (43_frame_codec.md R150): the eight bytes, delivered; nothing else changes; refused on an unseeded
table; bit 7 of `regAddr` is overwritten. -/
def Obligations.EncWriteDeliversTheFrame : Prop :=
  ∀ (s : State) (slave regAddr : Byte) (value : Word), s.xstate = .idle →
    (s.tables[s.cfg.crcIndex]? = some none → exec (.encWrite slave regAddr value) s = .fault .crcTableUnseeded) ∧
    (∀ t : CrcTable, s.tables[s.cfg.crcIndex]? = some (some t) →
      let f : List Byte := [s.cfg.sync, slave, (regAddr &&& 0x7F) ||| 0x80, value.extractLsb' 24 8,
        value.extractLsb' 16 8, value.extractLsb' 8 8, value.extractLsb' 0 8]
      exec (.encWrite slave regAddr value) s =
        .next { s with results := s.results ++ [.frame (f ++ [checksum t f])] })

/-- `ENC.READREQ slave, regAddr` (43_frame_codec.md R151): the four bytes, delivered; nothing else changes; refused on an unseeded
table. -/
def Obligations.EncReadreqDeliversTheFrame : Prop :=
  ∀ (s : State) (slave regAddr : Byte), s.xstate = .idle →
    (s.tables[s.cfg.crcIndex]? = some none → exec (.encReadreq slave regAddr) s = .fault .crcTableUnseeded) ∧
    (∀ t : CrcTable, s.tables[s.cfg.crcIndex]? = some (some t) →
      let f : List Byte := [s.cfg.sync, slave, regAddr &&& 0x7F]
      exec (.encReadreq slave regAddr) s =
        .next { s with results := s.results ++ [.frame (f ++ [checksum t f])] })

/-- `DEC.REPLY bytes` (43_frame_codec.md R153): refused unless there are 8 bytes, before the table is looked at; ChecksumMismatch with no
address and no value; otherwise bits 6:0 of byte 2 and the payload, most significant byte first. Nothing else changes. -/
def Obligations.DecReplyDecodes : Prop :=
  ∀ (s : State) (data : Vector Byte 8) (n : Nibble), s.xstate = .idle →
    (n.toNat ≠ 8 → exec (.decReply data n) s = .refused .badLength) ∧
    (s.tables[s.cfg.crcIndex]? = some none → exec (.decReply data 8) s = .fault .crcTableUnseeded) ∧
    (∀ (t : CrcTable) (b0 b1 b2 b3 b4 b5 b6 b7 : Byte), s.tables[s.cfg.crcIndex]? = some (some t) →
      data = #v[b0, b1, b2, b3, b4, b5, b6, b7] →
      let w : Word := (b3.zeroExtend 32 <<< 24) ||| (b4.zeroExtend 32 <<< 16) ||| (b5.zeroExtend 32 <<< 8) |||
        b6.zeroExtend 32
      (checksum t [b0, b1, b2, b3, b4, b5, b6] ≠ b7 →
        exec (.decReply data 8) s = .next { s with results := s.results ++ [.decoded .checksumMismatch] }) ∧
      (checksum t [b0, b1, b2, b3, b4, b5, b6] = b7 →
        exec (.decReply data 8) s =
          .next { s with results := s.results ++ [.decoded (.ok ((b2 &&& 0x7F).setWidth 7) w)] }))

/-- Round trip (43_frame_codec.md R156): the reply decoder gives back the address and the value that ENC.WRITE was given, for every slave,
every address operand and every signed value; what ENC.READREQ delivers (4 bytes) is refused. -/
def Obligations.DecReplyUndoesEncWrite : Prop :=
  ∀ (s : State) (slave regAddr : Byte) (value : Int), s.xstate = .idle → s.seeded s.cfg.crcIndex = true →
    -2 ^ 31 ≤ value → value < 2 ^ 31 →
    (∃ (frame : Vector Byte 8) (w : Word),
      exec (.encWrite slave regAddr (u32 value)) s =
        .next { s with results := s.results ++ [.frame frame.toList] } ∧
      exec (.decReply frame 8) s =
        .next { s with results := s.results ++ [.decoded (.ok ((regAddr &&& 0x7F).setWidth 7) w)] } ∧
      i32 w = value) ∧
    (∃ frame : List Byte, frame.length = 4 ∧
      exec (.encReadreq slave regAddr) s = .next { s with results := s.results ++ [.frame frame] } ∧
      ∀ data : Vector Byte 8, data.toList.take 4 = frame → exec (.decReply data 4) s = .refused .badLength)

/-- A write frame whose bytes 0 to 6 are altered so that their checksum changes, byte 7 being unaltered, is decoded to
ChecksumMismatch (43_frame_codec.md R157). -/
def Obligations.AlteredFrameIsRejected : Prop :=
  ∀ (s : State) (t : CrcTable) (slave regAddr : Byte) (value : Word) (body altered : List Byte) (c : Byte)
    (frame : Vector Byte 8),
    s.xstate = .idle → s.tables[s.cfg.crcIndex]? = some (some t) →
    encodeWrite t s.cfg.sync slave regAddr value = body ++ [c] → frame.toList = altered ++ [c] →
    checksum t altered ≠ checksum t body →
    exec (.decReply frame 8) s = .next { s with results := s.results ++ [.decoded .checksumMismatch] }

/-! ## The transport -/

/-- `XCHG data, writeLength, readLength, timeoutMs`, accept (42_transport.md R121, 20_memory.md R49): the latches take the operands, FB the
first `writeLength` bytes of data and keeps the others; a length above MAX_XFER is refused, length 0 is accepted. No table is
needed, and nothing else changes. -/
def Obligations.XchgIsAccepted : Prop :=
  ∀ (s : State) (data : List Byte) (wl rl : Nibble) (tm : Nat), s.xstate = .idle → data.length = s.cfg.maxXfer →
    (s.cfg.maxXfer < wl.toNat ∨ s.cfg.maxXfer < rl.toNat → exec (.xchg data wl rl tm) s = .refused .badLength) ∧
    (wl.toNat ≤ s.cfg.maxXfer → rl.toNat ≤ s.cfg.maxXfer →
      ∃ fb : List (Option Byte),
        (∀ i, fb[i]? = if i < wl.toNat then data[i]?.map some else s.fb[i]?) ∧
        exec (.xchg data wl rl tm) s =
          .next { s with
            fb := fb, wlen := some wl, rlen := some rl, tmo := some tm, curOp := .xchg, xstate := .clear })

/-- Clear, `CLEAR -> WRITE` (42_transport.md R122): always, whatever the lengths and whatever RXBUF holds. -/
def Obligations.ClearEmptiesTheBuffer : Prop :=
  ∀ (s : State) (rest : List Event), s.sequencerNext rest → s.xstate = .clear →
    step s = .next { s with schedule := rest, rxbuf := [], xstate := .write }

/-- Write, `WRITE -> SETTLE` (42_transport.md R123): one `transmit` of the first WLEN bytes of FB in ascending order, and TS takes the clock
reading; with WLEN 0 the empty sequence is transmitted. -/
def Obligations.WriteTransmitsTheFrame : Prop :=
  ∀ (s : State) (rest : List Event) (wl : Nibble) (bytes : List Byte), s.sequencerNext rest → s.xstate = .write →
    s.wlen = some wl → bytes.length = wl.toNat → (∀ i (_ : i < bytes.length), s.fb[i]? = some (some bytes[i])) →
    step s = .next { s with
      schedule := rest, line := s.line ++ [bytes], ts := some s.now, xstate := .settle }

/-- Settle, hold (42_transport.md R124): before SETTLE_MS have passed since TS the sequencer holds, on every exchange. That a turn
given to it then answers a next state with nothing changed is the MODEL's reading of a hold (log 16). -/
def Obligations.SettleHolds : Prop :=
  ∀ (s : State) (rest : List Event) (ts : Nat), s.sequencerNext rest → s.xstate = .settle → s.ts = some ts →
    s.elapsedSince ts < s.cfg.settleMs → step s = .next { s with schedule := rest }

/-- Settle exit (42_transport.md R125): at any clock reading with SETTLE_MS passed. With nothing to read the exchange ends as Written, for
WRREG and XCHG each on its own result port; otherwise TP takes the clock reading and polling starts. -/
def Obligations.SettleExits : Prop :=
  ∀ (s : State) (rest : List Event) (ts : Nat) (rl : Nibble), s.sequencerNext rest → s.xstate = .settle →
    s.ts = some ts → s.rlen = some rl → s.cfg.settleMs ≤ s.elapsedSince ts →
    (rl = 0 → s.curOp = .xchg →
      step s = .next { s with
        schedule := rest, result := .written, results := s.results ++ [.xchg .written []],
        curOp := .none, xstate := .idle }) ∧
    (rl = 0 → s.curOp = .wrreg →
      step s = .next { s with
        schedule := rest, result := .written, results := s.results ++ [.wrreg .written],
        curOp := .none, xstate := .idle }) ∧
    (rl ≠ 0 → step s = .next { s with schedule := rest, tp := some s.now, xstate := .poll })

/-- Poll, reply complete, for XCHG (42_transport.md R126): whatever the clock says (R130), the oldest RLEN bytes go to RB, the others stay in
RXBUF, and RB's other bytes keep their content. -/
def Obligations.PollTakesACompleteReply : Prop :=
  ∀ (s : State) (rest : List Event) (rl : Nibble), s.sequencerNext rest → s.xstate = .poll → s.curOp = .xchg →
    s.rlen = some rl → rl.toNat ≤ s.rxbuf.length →
    ∃ rb : List (Option Byte),
      (∀ i, rb[i]? = if i < rl.toNat then s.rxbuf[i]?.map some else s.rb[i]?) ∧
      step s = .next { s with
        schedule := rest, rb := rb, rbLen := some rl, rxbuf := s.rxbuf.drop rl.toNat, result := .received,
        results := s.results ++ [.xchg .received (s.rxbuf.take rl.toNat)], curOp := .none, xstate := .idle }

/-- Poll, timeout (42_transport.md R127): fewer than RLEN bytes and MORE than TMO milliseconds since TP. RXBUF, RB and RB_LEN keep what they
hold; XCHG delivers TimedOut, RDREG the sentinel. -/
def Obligations.PollTimesOut : Prop :=
  ∀ (s : State) (rest : List Event) (rl : Nibble) (tp tm : Nat), s.sequencerNext rest → s.xstate = .poll →
    s.rlen = some rl → s.tp = some tp → s.tmo = some tm → s.rxbuf.length < rl.toNat →
    tm < s.elapsedSince tp →
    (s.curOp = .xchg →
      step s = .next { s with
        schedule := rest, result := .timedOut, results := s.results ++ [.xchg .timedOut []],
        curOp := .none, xstate := .idle }) ∧
    (s.curOp = .rdreg →
      step s = .next { s with
        schedule := rest, rdata := some s.cfg.staleSentinel, result := .timedOut,
        results := s.results ++ [.rdreg s.cfg.staleSentinel .timedOut], curOp := .none, xstate := .idle })

/-- Poll, keep waiting (42_transport.md R128): fewer than RLEN bytes and at most TMO milliseconds: a poll changes nothing. With TMO the
greatest clock value that is always so (R133). -/
def Obligations.PollKeepsWaiting : Prop :=
  ∀ (s : State) (rest : List Event) (rl : Nibble) (tp tm : Nat), s.sequencerNext rest → s.xstate = .poll →
    s.rlen = some rl → s.tp = some tp → s.tmo = some tm → s.rxbuf.length < rl.toNat →
    (s.elapsedSince tp ≤ tm ∨ tm = 2 ^ s.cfg.clockBits - 1) → step s = .next { s with schedule := rest }

/-! ## The register engine -/

/-- `WRREG address, value` (44_register_engine.md R171): the accept step, with the frame built from the slave address of that moment; refused
on an unseeded table; and its end at the settle exit, which delivers Written and leaves RB, RB_LEN and RDATA alone. -/
def Obligations.WrregSendsAWriteFrame : Prop :=
  (∀ (s : State) (address : Byte) (value : Word), s.xstate = .idle →
    (s.tables[s.cfg.crcIndex]? = some none → exec (.wrreg address value) s = .fault .crcTableUnseeded) ∧
    (∀ t : CrcTable, s.tables[s.cfg.crcIndex]? = some (some t) →
      let f : List Byte := [s.cfg.sync, s.slaveAddr, (address &&& 0x7F) ||| 0x80, value.extractLsb' 24 8,
        value.extractLsb' 16 8, value.extractLsb' 8 8, value.extractLsb' 0 8]
      exec (.wrreg address value) s = .next { s with
          fb := (f ++ [checksum t f]).map some ++ s.fb.drop 8, addr := some ((address &&& 0x7F).setWidth 7), wlen := some 8, rlen := some 0,
          tmo := some s.cfg.timeoutMs, curOp := .wrreg, xstate := .clear })) ∧
  (∀ (s : State) (rest : List Event) (ts : Nat), s.sequencerNext rest → s.xstate = .settle → s.curOp = .wrreg →
    s.rlen = some 0 → s.ts = some ts → s.cfg.settleMs ≤ s.elapsedSince ts →
    step s = .next { s with
      schedule := rest, result := .written, results := s.results ++ [.wrreg .written],
      curOp := .none, xstate := .idle })

/-- `RDREG address` (44_register_engine.md R172): the accept step; and its end, with the value of a reply whose checksum matches, with the
sentinel and ChecksumMismatch for any other eight bytes (the raw bytes staying in RB), with the sentinel and TimedOut at the
timeout. The address and bytes 0 and 1 of the reply are not compared with anything (R177). -/
def Obligations.RdregReadsOrGivesTheSentinel : Prop :=
  (∀ (s : State) (address : Byte), s.xstate = .idle →
    (s.tables[s.cfg.crcIndex]? = some none → exec (.rdreg address) s = .fault .crcTableUnseeded) ∧
    (∀ t : CrcTable, s.tables[s.cfg.crcIndex]? = some (some t) →
      let f : List Byte := [s.cfg.sync, s.slaveAddr, address &&& 0x7F]
      exec (.rdreg address) s = .next { s with
          fb := (f ++ [checksum t f]).map some ++ s.fb.drop 4, addr := some ((address &&& 0x7F).setWidth 7), wlen := some 4, rlen := some 8,
          tmo := some s.cfg.timeoutMs, curOp := .rdreg, xstate := .clear })) ∧
  (∀ (s : State) (rest : List Event) (t : CrcTable), s.sequencerNext rest → s.xstate = .poll → s.curOp = .rdreg →
    s.rlen = some 8 → s.tables[s.cfg.crcIndex]? = some (some t) →
    (∀ (b0 b1 b2 b3 b4 b5 b6 b7 : Byte) (more : List Byte), s.rxbuf = [b0, b1, b2, b3, b4, b5, b6, b7] ++ more →
      let w : Word := (b3.zeroExtend 32 <<< 24) ||| (b4.zeroExtend 32 <<< 16) ||| (b5.zeroExtend 32 <<< 8) |||
        b6.zeroExtend 32
      let rb : List (Option Byte) := [b0, b1, b2, b3, b4, b5, b6, b7].map some ++ s.rb.drop 8
      (checksum t [b0, b1, b2, b3, b4, b5, b6] = b7 →
        step s = .next { s with
          schedule := rest, rb := rb, rbLen := some 8, rxbuf := more, rdata := some w, result := .received,
          results := s.results ++ [.rdreg w .received], curOp := .none, xstate := .idle }) ∧
      (checksum t [b0, b1, b2, b3, b4, b5, b6] ≠ b7 →
        step s = .next { s with
          schedule := rest, rb := rb, rbLen := some 8, rxbuf := more, rdata := some s.cfg.staleSentinel,
          result := .checksumMismatch, results := s.results ++ [.rdreg s.cfg.staleSentinel .checksumMismatch],
          curOp := .none, xstate := .idle })) ∧
    (∀ tp tm : Nat, s.rxbuf.length < 8 → s.tp = some tp → s.tmo = some tm → tm < s.elapsedSince tp →
      step s = .next { s with
        schedule := rest, rdata := some s.cfg.staleSentinel, result := .timedOut,
        results := s.results ++ [.rdreg s.cfg.staleSentinel .timedOut], curOp := .none, xstate := .idle }))

/-- A WRREG from its offer to its end (44_register_engine.md R171, 42_transport.md R121 to R125): whatever stale bytes RXBUF holds, when
the clock moves by at least SETTLE_MS after the transmit, the frame has been handed over once, Written has been delivered once, and
the receive latches are as before. The lists of turns and offers and the offer's byte image are the MODEL's (log 3, log 5,
log 4). -/
def Obligations.WrregRunsToItsEnd : Prop :=
  ∀ (s : State) (address : Byte) (value : Word) (t : CrcTable) (more : Nat) (os : List HostOffer) (rest : List Event),
    s.xstate = .idle → s.tables[s.cfg.crcIndex]? = some (some t) →
    s.offers = .command [0x07, address, value.extractLsb' 24 8, value.extractLsb' 16 8, value.extractLsb' 8 8,
      value.extractLsb' 0 8] :: os →
    s.schedule = .sequencer :: .sequencer :: .sequencer :: .clock more :: .sequencer :: rest →
    s.cfg.settleMs ≤ more + 1 → more + 1 < 2 ^ s.cfg.clockBits →
    ∃ s', core.run 5 s = .next s' ∧ s'.xstate = .idle ∧
      s'.line = s.line ++ [encodeWrite t s.cfg.sync s.slaveAddr address value] ∧
      s'.results = s.results ++ [.wrreg .written] ∧ s'.result = .written ∧ s'.rxbuf = [] ∧
      s'.rb = s.rb ∧ s'.rbLen = s.rbLen ∧ s'.rdata = s.rdata ∧ s'.slaveAddr = s.slaveAddr ∧
      s'.tables = s.tables ∧ s'.offers = os ∧ s'.schedule = rest

/-- An RDREG from its offer to its end (44_register_engine.md R172, R177, 42_transport.md R121 to R126, R136 (c)): whatever stale bytes RXBUF
holds at the start, and whatever reply arrives after the transmit, the request has been handed over once and RDREG has delivered,
once, the payload of the reply if its checksum matches and the sentinel otherwise. RX_CAP is at least REPLY_LEN (00_scope.md R5). The lists of turns and offers, the offer's byte
image and the reply's arrival in one move are the MODEL's (log 3, log 5, log 4, log 7). -/
def Obligations.RdregRunsToItsEnd : Prop :=
  ∀ (s : State) (address : Byte) (t : CrcTable) (more : Nat) (os : List HostOffer) (rest : List Event)
    (b0 b1 b2 b3 b4 b5 b6 b7 : Byte),
    s.xstate = .idle → s.tables[s.cfg.crcIndex]? = some (some t) →
    s.offers = .command [0x08, address] :: os →
    s.schedule = .sequencer :: .sequencer :: .sequencer :: .clock more :: .sequencer ::
      .arrive [b0, b1, b2, b3, b4, b5, b6, b7] :: .sequencer :: rest →
    Config.replyLen.toNat ≤ s.cfg.rxCap →
    s.cfg.settleMs ≤ more + 1 → more + 1 < 2 ^ s.cfg.clockBits →
    ∃ s' w r, core.run 7 s = .next s' ∧ s'.xstate = .idle ∧
      s'.line = s.line ++ [encodeReadRequest t s.cfg.sync s.slaveAddr address] ∧
      s'.results = s.results ++ [.rdreg w r] ∧ s'.rdata = some w ∧ s'.result = r ∧
      (checksum t [b0, b1, b2, b3, b4, b5, b6] = b7 → w = payloadOf b3 b4 b5 b6 ∧ r = .received) ∧
      (checksum t [b0, b1, b2, b3, b4, b5, b6] ≠ b7 → w = s.cfg.staleSentinel ∧ r = .checksumMismatch) ∧
      s'.rb = [b0, b1, b2, b3, b4, b5, b6, b7].map some ++ s.rb.drop 8 ∧ s'.rbLen = some 8 ∧ s'.rxbuf = [] ∧
      s'.offers = os ∧ s'.schedule = rest

/-! ## The control registers -/

/-- `CSRRW csr, value` (44_register_engine.md R174): register 0 takes bits 7:0, nothing else changes; every other number is refused. -/
def Obligations.CsrrwWritesTheSlaveAddress : Prop :=
  ∀ (s : State) (csr : Byte) (value : Word), s.xstate = .idle →
    (csr = 0 → exec (.csrrw csr value) s = .next { s with slaveAddr := value.extractLsb' 0 8 }) ∧
    (csr ≠ 0 → exec (.csrrw csr value) s = .refused .badCsr)

/-- BadCsr (44_register_engine.md R176): CSRRW to any register but number 0, and CSRR or CSRRW to a number 10_state.md R19 does not list,
that is, at or above 12 + N_CRC_TABLES. -/
def Obligations.AbsentCsrIsRefused : Prop :=
  ∀ (s : State) (csr : Byte) (value : Word), s.xstate = .idle →
    (csr.toNat ≠ 0 → exec (.csrrw csr value) s = .refused .badCsr) ∧
    (12 + s.tables.length ≤ csr.toNat → exec (.csrr csr) s = .refused .badCsr)

/-- `CSRR csr` (44_register_engine.md R175) over the register map of 10_state.md R19: the register's value extended with zeros, delivered, and
nothing else changed; ReadOfUnwritten where nothing was written. -/
def Obligations.CsrrReadsTheRegister : Prop :=
  ∀ (s : State) (csr : Byte), s.xstate = .idle →
    (csr.toNat = 0 → exec (.csrr csr) s = .next { s with results := s.results ++ [.csr (s.slaveAddr.zeroExtend 32)] }) ∧
    (csr.toNat = 1 → ∃ st : Word, exec (.csrr csr) s = .next { s with results := s.results ++ [.csr st] } ∧
      st.toNat = 2 * s.result.code.toNat + 16 * (s.seeded s.cfg.crcIndex).toNat) ∧
    (csr.toNat = 2 → (s.rdata = none → exec (.csrr csr) s = .fault .readOfUnwritten) ∧
      ∀ w, s.rdata = some w → exec (.csrr csr) s = .next { s with results := s.results ++ [.csr w] }) ∧
    (csr.toNat = 3 → (s.rbLen = none → exec (.csrr csr) s = .fault .readOfUnwritten) ∧
      ∀ n, s.rbLen = some n → exec (.csrr csr) s = .next { s with results := s.results ++ [.csr (n.zeroExtend 32)] }) ∧
    (∀ i, i < 8 → csr.toNat = 4 + i →
      (s.rb[i]? = some none → exec (.csrr csr) s = .fault .readOfUnwritten) ∧
      ∀ b, s.rb[i]? = some (some b) → exec (.csrr csr) s = .next { s with results := s.results ++ [.csr (b.zeroExtend 32)] }) ∧
    (∀ k, csr.toNat = 12 + k →
      (s.tables[k]? = some none → exec (.csrr csr) s = .fault .readOfUnwritten) ∧
      ∀ t, s.tables[k]? = some (some t) → ∃ w : Word,
        exec (.csrr csr) s = .next { s with results := s.results ++ [.csr w] } ∧
        w.toNat = t.poly.toNat + 256 * t.reflected.toNat + 512)

/-- STATUS (10_state.md R19) in every state, busy ones included: bit 0 BUSY, bits 3:1 RESULT, bit 4 SEEDED[CRC_INDEX], bits 7:5 zero. -/
def Obligations.StatusBits : Prop :=
  ∀ s : State, s.status.getLsbD 0 = s.busy ∧ s.status.extractLsb' 1 3 = s.result.code ∧
    s.status.getLsbD 4 = s.seeded s.cfg.crcIndex ∧ s.status.extractLsb' 5 3 = 0

/-- The boot order (70_reset_and_hazards.md R231): once the codec's table is seeded, each operation that needs a checksum from it answers a
next state. That CRC.CALC and CRC.CHECK do so for a length above MAX_XFER too is the MODEL's choice (log 14): 41_checksum.md R104 bounds
the length at the port. -/
def Obligations.SeedingOpensTheCodec : Prop :=
  ∀ (s : State) (poly : Byte) (reflected : Bool) (index : Byte), s.xstate = .idle → index.toNat = s.cfg.crcIndex →
    index.toNat < s.tables.length →
    ∃ s', exec (.crcInittable poly reflected index) s = .next s' ∧ s'.seeded s'.cfg.crcIndex = true ∧
      (∀ data n, ∃ t, exec (.crcCalc data n index) s' = .next t) ∧
      (∀ data n, n ≠ 0 → ∃ t, exec (.crcCheck data n index) s' = .next t) ∧
      (∀ slave a v, ∃ t, exec (.encWrite slave a v) s' = .next t) ∧
      (∀ slave a, ∃ t, exec (.encReadreq slave a) s' = .next t) ∧
      (∀ data, ∃ t, exec (.decReply data 8) s' = .next t) ∧
      (∀ a v, ∃ t, exec (.wrreg a v) s' = .next t ∧ t.xstate = .clear) ∧
      (∀ a, ∃ t, exec (.rdreg a) s' = .next t ∧ t.xstate = .clear)

/-! ## The wire frames -/

/-- A write frame and a read-request frame handed to the serializer are exchanges of exactly their bytes, sync first and checksum last: with
nothing to read, and with a reply of REPLY_LEN bytes to read. No table is needed and the checksum is not checked. The reading of these
two rows as exchanges is the MODEL's (log 6), from 43_frame_codec.md R152 and 30_encoding.md R87. -/
def Obligations.SentFramesAreExchanges : Prop :=
  ∀ (s : State) (slave : Byte) (a : RegAddr) (v : Word) (c : Byte), s.xstate = .idle →
    exec (.frameWrite slave a v c) s = .next { s with
      fb := [s.cfg.sync, slave, a.zeroExtend 8 ||| 0x80, v.extractLsb' 24 8, v.extractLsb' 16 8, v.extractLsb' 8 8,
        v.extractLsb' 0 8, c].map some ++ s.fb.drop 8,
      wlen := some 8, rlen := some 0, tmo := some s.cfg.timeoutMs, curOp := .xchg, xstate := .clear } ∧
    exec (.frameReadreq slave a c) s = .next { s with
      fb := [s.cfg.sync, slave, a.zeroExtend 8, c].map some ++ s.fb.drop 4,
      wlen := some 4, rlen := some 8, tmo := some s.cfg.timeoutMs, curOp := .xchg, xstate := .clear }

/-- A reply frame that finds room enters RXBUF byte 0 first and changes nothing else (20_memory.md R43, 60_exceptions.md R212); and its
arrival in one step is the arrival of its bytes one by one, room or not (log 7). -/
def Obligations.ReplyFrameArrives : Prop :=
  (∀ (s : State) (b0 b1 : Byte) (f : Bool) (a : RegAddr) (v : Word) (c : Byte),
    s.rxbuf.length + 8 ≤ s.cfg.rxCap →
    exec (.frameReply b0 b1 f a v c) s = .next { s with
      rxbuf := s.rxbuf ++ [b0, b1, a.zeroExtend 8 ||| (if f then 0x80 else 0), v.extractLsb' 24 8,
        v.extractLsb' 16 8, v.extractLsb' 8 8, v.extractLsb' 0 8, c] }) ∧
  (∀ (s : State) (bytes : List Byte) (rest : List Event), bytes.length = 8 →
    step { s with schedule := .arrive bytes :: rest } =
      core.run 8 { s with schedule := bytes.map .byte ++ rest })

/-! ## Ending an exchange -/

/-- An exchange can always end (42_transport.md R133): from every state of the invariant with an exchange in flight that has nothing
to read or a timeout other than the greatest clock value, some schedule of turns and clock moves, with no byte arriving, leads to
IDLE. -/
def Obligations.ExchangeCanEnd : Prop :=
  ∀ s : State, s.Inv → s.xstate ≠ .idle → s.rlen = some 0 ∨ s.tmo ≠ some (2 ^ s.cfg.clockBits - 1) →
    ∃ (sched : List Event) (s' : State),
      (∀ e ∈ sched, e = .sequencer ∨ ∃ more, e = .clock more) ∧
      core.run sched.length { s with schedule := sched } = .next s' ∧ s'.xstate = .idle
end

