-- ==== Sys2Proof/Laws/Operands.lean ====
section
/-! SUPPORT. The bit fields and byte orders: each split is undone by its assembly (spec/30_encoding.md R75, R76). -/

namespace Sys2Proof.Machine

/-- Bit `k` of the result is bit `7-k` (00_scope.md R6). -/
theorem getLsbD_flip8 (b : Byte) (i : Nat) (h : i < 8) : (flip8 b).getLsbD i = b.getLsbD (7 - i) := by
  rw [flip8, BitVec.getLsbD_reverse, BitVec.getMsbD]
  simp [h]

@[simp] theorem flip8_flip8 (b : Byte) : flip8 (flip8 b) = b := by
  apply BitVec.eq_of_getLsbD_eq
  intro i hi
  rw [getLsbD_flip8 _ _ hi, getLsbD_flip8 _ _ (by omega)]
  congr 1
  omega

@[simp] theorem flip8_zero : flip8 0#8 = 0#8 := by decide

theorem flip8_xor (a b : Byte) : flip8 (a ^^^ b) = flip8 a ^^^ flip8 b := by
  apply BitVec.eq_of_getLsbD_eq
  intro i hi
  simp [getLsbD_flip8 _ _ hi]

/-- Splitting a word into its payload bytes and assembling them gives it back (30_encoding.md R76). -/
@[simp] theorem payloadOf_extract (w : Word) :
    payloadOf (w.extractLsb' 24 8) (w.extractLsb' 16 8) (w.extractLsb' 8 8) (w.extractLsb' 0 8) = w := by
  apply BitVec.eq_of_getLsbD_eq
  intro i hi
  unfold payloadOf
  interval_cases i <;> simp

/-- Assembling four bytes and splitting the word gives them back (30_encoding.md R76). -/
@[simp] theorem payloadBytes_payloadOf (a b c d : Byte) : payloadBytes (payloadOf a b c d) = [a, b, c, d] := by
  unfold payloadBytes payloadOf
  simp only [List.cons.injEq, and_true]
  refine ⟨?_, ?_, ?_, ?_⟩ <;>
    (apply BitVec.eq_of_getLsbD_eq; intro i hi; interval_cases i <;> simp)

@[simp] theorem length_payloadBytes (w : Word) : (payloadBytes w).length = 4 := rfl

/-- The address is recovered by masking the flag off (30_encoding.md R75). -/
@[simp] theorem logicalAddr_addrByte (f : Bool) (a : RegAddr) : logicalAddr (addrByte f a) = a := by
  apply BitVec.eq_of_getLsbD_eq
  intro i hi
  unfold logicalAddr addrByte
  interval_cases i <;> cases f <;> simp

@[simp] theorem writeFlag_addrByte (f : Bool) (a : RegAddr) : writeFlag (addrByte f a) = f := by
  unfold writeFlag addrByte
  cases f <;> simp

@[simp] theorem addrByte_writeFlag (b : Byte) : addrByte (writeFlag b) (logicalAddr b) = b := by
  apply BitVec.eq_of_getLsbD_eq
  intro i hi
  unfold writeFlag logicalAddr addrByte
  interval_cases i <;> by_cases h : b[7] <;> simp [h]

@[simp] theorem length_bytesLE (k w : Nat) : (bytesLE k w).length = k := by
  induction k generalizing w with
  | zero => rfl
  | succ k ih => simp [bytesLE, ih]

@[simp] theorem length_bytesBE (k w : Nat) : (bytesBE k w).length = k := by simp [bytesBE]

/-- One more byte at the end. -/
theorem natOfBytes_concat (bs : List Byte) (b : Byte) : natOfBytes (bs ++ [b]) = 256 * natOfBytes bs + b.toNat := by
  simp [natOfBytes]

/-- A number that fits is read back from its bytes. -/
theorem natOfBytes_bytesBE {k w : Nat} (h : w < 256 ^ k) : natOfBytes (bytesBE k w) = w := by
  induction k generalizing w with
  | zero => simp_all [bytesBE, bytesLE, natOfBytes]
  | succ k ih =>
    have hk : w / 256 < 256 ^ k := Nat.div_lt_of_lt_mul (by rwa [← Nat.pow_succ'])
    have := ih hk
    simp only [bytesBE, bytesLE, List.reverse_cons] at this ⊢
    rw [natOfBytes_concat, this, BitVec.toNat_ofNat]
    omega

/-- Bytes are those of the number they make. -/
theorem bytesBE_natOfBytes (bs : List Byte) : bytesBE bs.length (natOfBytes bs) = bs := by
  induction bs using List.reverseRecOn with
  | nil => rfl
  | append_singleton bs b ih =>
    have hb := b.isLt
    rw [natOfBytes_concat, List.length_append, List.length_singleton]
    simp only [bytesBE, bytesLE, List.reverse_cons] at ih ⊢
    rw [show (256 * natOfBytes bs + b.toNat) / 256 = natOfBytes bs by omega, ih]
    congr 2
    apply BitVec.eq_of_toNat_eq
    rw [BitVec.toNat_ofNat]
    omega

/-- A CLOCK_BITS number fits its bytes. -/
theorem lt_pow_clockBytes {c : Config} {t : Nat} (h : t < c.clockRange) : t < 256 ^ c.clockBytes := by
  refine lt_of_lt_of_le h ?_
  rw [show (256 : Nat) = 2 ^ 8 from rfl, ← Nat.pow_mul]
  exact Nat.pow_le_pow_right (by omega) (by unfold Config.clockBytes; omega)

end Sys2Proof.Machine
end

