-- ==== Sys2Proof/Laws/Checksum.lean ====
section
/-! SUPPORT. The checksum engine: entries of a table that CRC.INITTABLE built, and the canonical form of the table memory. -/

namespace Sys2Proof.Machine

/-- Entry `i` of the table that CRC.INITTABLE builds (41_checksum.md R102). -/
theorem mkTable_entry (poly : Byte) (reflected : Bool) (i : Byte) :
    (mkTable poly reflected).entries[i.toNat]'i.isLt = tableEntry poly reflected i := by
  simp [mkTable]

/-- One step of the engine on such a table (41_checksum.md R101). -/
@[simp] theorem crcStep_mkTable (poly : Byte) (reflected : Bool) (r b : Byte) :
    crcStep (mkTable poly reflected) r b = tableEntry poly reflected (r ^^^ b) :=
  mkTable_entry poly reflected (r ^^^ b)

@[simp] theorem mkTable_poly (poly : Byte) (reflected : Bool) : (mkTable poly reflected).poly = poly := rfl

@[simp] theorem mkTable_reflected (poly : Byte) (reflected : Bool) : (mkTable poly reflected).reflected = reflected := rfl

/-- A slot in its form holds what CRC.INITTABLE built. -/
theorem slotWf_some {t : CrcTable} : slotWf (some t) = true ↔ t = mkTable t.poly t.reflected := by simp [slotWf]

theorem slotWf_mkTable (poly : Byte) (reflected : Bool) : slotWf (some (mkTable poly reflected)) = true := by
  simp [slotWf]

/-- A seeded table of a canonical memory is what CRC.INITTABLE built (10_state.md R23). -/
theorem Memory.wf_table {n k : Nat} {m : Memory} {t : CrcTable} (h : m.wf n = true) (ht : m[k]? = some (some t)) :
    t = mkTable t.poly t.reflected := by
  simp only [Memory.wf, Bool.and_eq_true, List.all_eq_true] at h
  exact slotWf_some.1 (h.2 _ (List.mem_of_getElem? ht))

theorem Memory.wf_length {n : Nat} {m : Memory} (h : m.wf n = true) : m.length = n := by
  simp only [Memory.wf, Bool.and_eq_true, beq_iff_eq] at h
  exact h.1

/-- Reset leaves the canonical form (10_state.md R36). -/
theorem Memory.wf_reset (n : Nat) : (Memory.reset n).wf n = true := by
  simp [Memory.wf, Memory.reset, slotWf]

/-- Seeding, the one write there is, keeps the canonical form (10_state.md R23). -/
theorem Memory.wf_set {n k : Nat} {m : Memory} (h : m.wf n = true) (poly : Byte) (reflected : Bool) :
    Memory.wf n (m.set k (some (mkTable poly reflected))) = true := by
  simp only [Memory.wf, Bool.and_eq_true, beq_iff_eq, List.all_eq_true, List.length_set] at h ⊢
  refine ⟨h.1, fun o ho => ?_⟩
  rcases List.mem_or_eq_of_mem_set ho with ho | rfl
  · exact h.2 _ ho
  · exact slotWf_mkTable poly reflected

end Sys2Proof.Machine
end

