-- ==== Sys2Proof/Laws/Decode.lean ====
section
/-! SUPPORT. The one-bit and four-bit lines of a port image, and which instructions each channel carries. -/

namespace Sys2Proof

open Sys2Proof.Machine

/-- A four-bit line is read as it was written. -/
@[simp] theorem nibbleOf_nibbleByte (n : Nibble) : nibbleOf (nibbleByte n) = .ok n := by
  have h : (nibbleByte n).toNat = n.toNat := by
    simp [nibbleByte, BitVec.toNat_setWidth, Nat.mod_eq_of_lt (show n.toNat < 256 by omega)]
  have h' : (nibbleByte n).setWidth 4 = n := by
    apply BitVec.eq_of_toNat_eq
    simp [BitVec.toNat_setWidth, h, Nat.mod_eq_of_lt n.isLt]
  simp [nibbleOf, h, h', n.isLt]

/-- A four-bit line that is accepted is the byte it was read from. -/
theorem nibbleByte_of_nibbleOf {b : Byte} {n : Nibble} (h : nibbleOf b = .ok n) : nibbleByte n = b := by
  unfold nibbleOf at h
  split at h
  · cases h
    apply BitVec.eq_of_toNat_eq
    simp only [nibbleByte, BitVec.toNat_setWidth]
    omega
  · cases h

/-- A one-bit line is read as it was written. -/
@[simp] theorem boolOf_boolByte (b : Bool) : boolOf (boolByte b) = .ok b := by cases b <;> rfl

/-- A one-bit line that is accepted is the byte it was read from. -/
theorem boolByte_of_boolOf {b : Byte} {x : Bool} (h : boolOf b = .ok x) : boolByte x = b := by
  unfold boolOf at h
  split at h
  · cases h
    have : b = 0 ∨ b = 1 := by
      have : b.toNat = 0 ∨ b.toNat = 1 := by omega
      rcases this with h | h
      · exact .inl (BitVec.eq_of_toNat_eq h)
      · exact .inr (BitVec.eq_of_toNat_eq h)
    rcases this with rfl | rfl <;> rfl
  · cases h

/-- Lines that are there are taken. -/
theorem takeLines_append {k : Nat} {data rest : List Byte} (h : data.length = k) :
    takeLines k (data ++ rest) = .ok (data, rest) := by
  subst h
  simp [takeLines]

/-- Lines that were taken stood in front of the rest. -/
theorem takeLines_ok {k : Nat} {ops : List Byte} {p : List Byte × List Byte} (h : takeLines k ops = .ok p) :
    p.1.length = k ∧ ops = p.1 ++ p.2 := by
  unfold takeLines at h
  split at h
  · cases h
    simpa
  · cases h

/-- A CLOCK_BITS operand is read as it was written. -/
theorem decodeTime_bytesBE {cfg : Config} {t : Nat} (h : t < cfg.clockRange) (rest : List Byte) :
    decodeTime cfg (bytesBE cfg.clockBytes t ++ rest) = .ok t := by
  rw [decodeTime, takeLines_append (length_bytesBE _ _), Except.bind]
  simp [natOfBytes_bytesBE (lt_pow_clockBytes h), h]

/-- A CLOCK_BITS operand that is accepted is within the clock's range, and its bytes were read. -/
theorem decodeTime_ok {cfg : Config} {ops : List Byte} {t : Nat} (h : decodeTime cfg ops = .ok t) :
    t < cfg.clockRange ∧ bytesBE cfg.clockBytes t <+: ops := by
  unfold decodeTime at h
  cases hl : takeLines cfg.clockBytes ops with
  | error => simp [hl, Except.bind] at h
  | ok p =>
    obtain ⟨hk, hops⟩ := takeLines_ok hl
    simp only [hl, Except.bind] at h
    split at h
    · cases h
      exact ⟨‹_›, p.2, by rw [← hk, bytesBE_natOfBytes, hops]⟩
    · cases h

/-- What comes from the device is always a reply frame (30_encoding.md R79). -/
theorem decodeToBlock_ok {bytes : List Byte} {i : Instr} (h : decodeToBlock bytes = .ok i) :
    ∃ b0 b1 f a v c, i = .frameReply b0 b1 f a v c := by
  unfold decodeToBlock at h
  split at h
  · cases h
    exact ⟨_, _, _, _, _, _, rfl⟩
  · cases h

end Sys2Proof
end

