-- ==== Sys2Proof/Laws/State.lean ====
section
/-! SUPPORT. For each named update of the state, what every field is after it: one conjunction per update, which simp takes
apart into one rewriting lemma per field. -/

namespace Sys2Proof.Machine

/-- `clearBuffers()` empties RXBUF and does nothing else (60_exceptions.md R208). -/
@[simp] theorem clearBuffers_fields (s : State) :
    (s.clearBuffers).cfg = s.cfg ∧ (s.clearBuffers).xstate = s.xstate ∧ (s.clearBuffers).curOp = s.curOp ∧
    (s.clearBuffers).fb = s.fb ∧ (s.clearBuffers).wlen = s.wlen ∧ (s.clearBuffers).rlen = s.rlen ∧
    (s.clearBuffers).tmo = s.tmo ∧ (s.clearBuffers).ts = s.ts ∧ (s.clearBuffers).tp = s.tp ∧
    (s.clearBuffers).addr = s.addr ∧ (s.clearBuffers).rb = s.rb ∧ (s.clearBuffers).rbLen = s.rbLen ∧
    (s.clearBuffers).result = s.result ∧ (s.clearBuffers).rdata = s.rdata ∧ (s.clearBuffers).slaveAddr = s.slaveAddr ∧
    (s.clearBuffers).tables = s.tables ∧ (s.clearBuffers).rxbuf = [] ∧ (s.clearBuffers).now = s.now ∧
    (s.clearBuffers).line = s.line ∧ (s.clearBuffers).results = s.results ∧ (s.clearBuffers).offers = s.offers ∧
    (s.clearBuffers).schedule = s.schedule ∧ (s.clearBuffers).freeUses = s.freeUses :=
  ⟨rfl, rfl, rfl, rfl, rfl, rfl, rfl, rfl, rfl, rfl, rfl, rfl, rfl, rfl, rfl, rfl, rfl, rfl, rfl, rfl, rfl, rfl, rfl⟩

/-- `transmit` hands one sequence to the line and does nothing else (60_exceptions.md R209). -/
@[simp] theorem transmit_fields (s : State) (bytes : List Byte) :
    (s.transmit bytes).cfg = s.cfg ∧ (s.transmit bytes).xstate = s.xstate ∧ (s.transmit bytes).curOp = s.curOp ∧
    (s.transmit bytes).fb = s.fb ∧ (s.transmit bytes).wlen = s.wlen ∧ (s.transmit bytes).rlen = s.rlen ∧
    (s.transmit bytes).tmo = s.tmo ∧ (s.transmit bytes).ts = s.ts ∧ (s.transmit bytes).tp = s.tp ∧
    (s.transmit bytes).addr = s.addr ∧ (s.transmit bytes).rb = s.rb ∧ (s.transmit bytes).rbLen = s.rbLen ∧
    (s.transmit bytes).result = s.result ∧ (s.transmit bytes).rdata = s.rdata ∧
    (s.transmit bytes).slaveAddr = s.slaveAddr ∧ (s.transmit bytes).tables = s.tables ∧
    (s.transmit bytes).rxbuf = s.rxbuf ∧ (s.transmit bytes).now = s.now ∧ (s.transmit bytes).line = s.line ++ [bytes] ∧
    (s.transmit bytes).results = s.results ∧ (s.transmit bytes).offers = s.offers ∧
    (s.transmit bytes).schedule = s.schedule ∧ (s.transmit bytes).freeUses = s.freeUses :=
  ⟨rfl, rfl, rfl, rfl, rfl, rfl, rfl, rfl, rfl, rfl, rfl, rfl, rfl, rfl, rfl, rfl, rfl, rfl, rfl, rfl, rfl, rfl, rfl⟩

/-- `receive(n)` takes the oldest bytes and does nothing else (60_exceptions.md R211). -/
@[simp] theorem dropReceived_fields (s : State) (n : Nat) :
    (s.dropReceived n).cfg = s.cfg ∧ (s.dropReceived n).xstate = s.xstate ∧ (s.dropReceived n).curOp = s.curOp ∧
    (s.dropReceived n).fb = s.fb ∧ (s.dropReceived n).wlen = s.wlen ∧ (s.dropReceived n).rlen = s.rlen ∧
    (s.dropReceived n).tmo = s.tmo ∧ (s.dropReceived n).ts = s.ts ∧ (s.dropReceived n).tp = s.tp ∧
    (s.dropReceived n).addr = s.addr ∧ (s.dropReceived n).rb = s.rb ∧ (s.dropReceived n).rbLen = s.rbLen ∧
    (s.dropReceived n).result = s.result ∧ (s.dropReceived n).rdata = s.rdata ∧
    (s.dropReceived n).slaveAddr = s.slaveAddr ∧ (s.dropReceived n).tables = s.tables ∧
    (s.dropReceived n).rxbuf = s.rxbuf.drop n ∧ (s.dropReceived n).now = s.now ∧ (s.dropReceived n).line = s.line ∧
    (s.dropReceived n).results = s.results ∧ (s.dropReceived n).offers = s.offers ∧
    (s.dropReceived n).schedule = s.schedule ∧ (s.dropReceived n).freeUses = s.freeUses :=
  ⟨rfl, rfl, rfl, rfl, rfl, rfl, rfl, rfl, rfl, rfl, rfl, rfl, rfl, rfl, rfl, rfl, rfl, rfl, rfl, rfl, rfl, rfl, rfl⟩

/-- The clock's step (60_exceptions.md R205). -/
@[simp] theorem tick_fields (s : State) (more : Nat) :
    (s.tick more).cfg = s.cfg ∧ (s.tick more).xstate = s.xstate ∧ (s.tick more).curOp = s.curOp ∧
    (s.tick more).fb = s.fb ∧ (s.tick more).wlen = s.wlen ∧ (s.tick more).rlen = s.rlen ∧ (s.tick more).tmo = s.tmo ∧
    (s.tick more).ts = s.ts ∧ (s.tick more).tp = s.tp ∧ (s.tick more).addr = s.addr ∧ (s.tick more).rb = s.rb ∧
    (s.tick more).rbLen = s.rbLen ∧ (s.tick more).result = s.result ∧ (s.tick more).rdata = s.rdata ∧
    (s.tick more).slaveAddr = s.slaveAddr ∧ (s.tick more).tables = s.tables ∧ (s.tick more).rxbuf = s.rxbuf ∧
    (s.tick more).now = (s.now + (more + 1)) % s.cfg.clockRange ∧ (s.tick more).line = s.line ∧
    (s.tick more).results = s.results ∧ (s.tick more).offers = s.offers ∧ (s.tick more).schedule = s.schedule ∧
    (s.tick more).freeUses = s.freeUses :=
  ⟨rfl, rfl, rfl, rfl, rfl, rfl, rfl, rfl, rfl, rfl, rfl, rfl, rfl, rfl, rfl, rfl, rfl, rfl, rfl, rfl, rfl, rfl, rfl⟩

/-- Seeding writes one table (10_state.md R23). -/
@[simp] theorem writeTable_fields (s : State) (k : Nat) (t : CrcTable) :
    (s.writeTable k t).cfg = s.cfg ∧ (s.writeTable k t).xstate = s.xstate ∧ (s.writeTable k t).curOp = s.curOp ∧
    (s.writeTable k t).fb = s.fb ∧ (s.writeTable k t).wlen = s.wlen ∧ (s.writeTable k t).rlen = s.rlen ∧
    (s.writeTable k t).tmo = s.tmo ∧ (s.writeTable k t).ts = s.ts ∧ (s.writeTable k t).tp = s.tp ∧
    (s.writeTable k t).addr = s.addr ∧ (s.writeTable k t).rb = s.rb ∧ (s.writeTable k t).rbLen = s.rbLen ∧
    (s.writeTable k t).result = s.result ∧ (s.writeTable k t).rdata = s.rdata ∧
    (s.writeTable k t).slaveAddr = s.slaveAddr ∧ (s.writeTable k t).tables = s.tables.set k (some t) ∧
    (s.writeTable k t).rxbuf = s.rxbuf ∧ (s.writeTable k t).now = s.now ∧ (s.writeTable k t).line = s.line ∧
    (s.writeTable k t).results = s.results ∧ (s.writeTable k t).offers = s.offers ∧
    (s.writeTable k t).schedule = s.schedule ∧ (s.writeTable k t).freeUses = s.freeUses :=
  ⟨rfl, rfl, rfl, rfl, rfl, rfl, rfl, rfl, rfl, rfl, rfl, rfl, rfl, rfl, rfl, rfl, rfl, rfl, rfl, rfl, rfl, rfl, rfl⟩

/-- One transfer of the result port (30_encoding.md R84). -/
@[simp] theorem deliver_fields (s : State) (r : Response) :
    (s.deliver r).cfg = s.cfg ∧ (s.deliver r).xstate = s.xstate ∧ (s.deliver r).curOp = s.curOp ∧
    (s.deliver r).fb = s.fb ∧ (s.deliver r).wlen = s.wlen ∧ (s.deliver r).rlen = s.rlen ∧ (s.deliver r).tmo = s.tmo ∧
    (s.deliver r).ts = s.ts ∧ (s.deliver r).tp = s.tp ∧ (s.deliver r).addr = s.addr ∧ (s.deliver r).rb = s.rb ∧
    (s.deliver r).rbLen = s.rbLen ∧ (s.deliver r).result = s.result ∧ (s.deliver r).rdata = s.rdata ∧
    (s.deliver r).slaveAddr = s.slaveAddr ∧ (s.deliver r).tables = s.tables ∧ (s.deliver r).rxbuf = s.rxbuf ∧
    (s.deliver r).now = s.now ∧ (s.deliver r).line = s.line ∧ (s.deliver r).results = s.results ++ [r] ∧
    (s.deliver r).offers = s.offers ∧ (s.deliver r).schedule = s.schedule ∧ (s.deliver r).freeUses = s.freeUses :=
  ⟨rfl, rfl, rfl, rfl, rfl, rfl, rfl, rfl, rfl, rfl, rfl, rfl, rfl, rfl, rfl, rfl, rfl, rfl, rfl, rfl, rfl, rfl, rfl⟩

/-- A result whose value is free (log 14). -/
@[simp] theorem deliverFree_fields (s : State) (f : Nat → Response) :
    (s.deliverFree f).cfg = s.cfg ∧ (s.deliverFree f).xstate = s.xstate ∧ (s.deliverFree f).curOp = s.curOp ∧
    (s.deliverFree f).fb = s.fb ∧ (s.deliverFree f).wlen = s.wlen ∧ (s.deliverFree f).rlen = s.rlen ∧
    (s.deliverFree f).tmo = s.tmo ∧ (s.deliverFree f).ts = s.ts ∧ (s.deliverFree f).tp = s.tp ∧
    (s.deliverFree f).addr = s.addr ∧ (s.deliverFree f).rb = s.rb ∧ (s.deliverFree f).rbLen = s.rbLen ∧
    (s.deliverFree f).result = s.result ∧ (s.deliverFree f).rdata = s.rdata ∧
    (s.deliverFree f).slaveAddr = s.slaveAddr ∧ (s.deliverFree f).tables = s.tables ∧
    (s.deliverFree f).rxbuf = s.rxbuf ∧ (s.deliverFree f).now = s.now ∧ (s.deliverFree f).line = s.line ∧
    (s.deliverFree f).results = s.results ++ [f s.freeUses] ∧ (s.deliverFree f).offers = s.offers ∧
    (s.deliverFree f).schedule = s.schedule ∧ (s.deliverFree f).freeUses = s.freeUses + 1 :=
  ⟨rfl, rfl, rfl, rfl, rfl, rfl, rfl, rfl, rfl, rfl, rfl, rfl, rfl, rfl, rfl, rfl, rfl, rfl, rfl, rfl, rfl, rfl, rfl⟩

/-- What accepting an exchange writes (42_transport.md R121). -/
@[simp] theorem accept_fields (s : State) (op : CurOp) (bytes : List Byte) (wl rl : Nibble) (tm : Nat) :
    (s.accept op bytes wl rl tm).cfg = s.cfg ∧ (s.accept op bytes wl rl tm).xstate = .clear ∧
    (s.accept op bytes wl rl tm).curOp = op ∧ (s.accept op bytes wl rl tm).fb = overlay bytes s.fb ∧
    (s.accept op bytes wl rl tm).wlen = some wl ∧ (s.accept op bytes wl rl tm).rlen = some rl ∧
    (s.accept op bytes wl rl tm).tmo = some tm ∧ (s.accept op bytes wl rl tm).ts = s.ts ∧
    (s.accept op bytes wl rl tm).tp = s.tp ∧ (s.accept op bytes wl rl tm).addr = s.addr ∧
    (s.accept op bytes wl rl tm).rb = s.rb ∧ (s.accept op bytes wl rl tm).rbLen = s.rbLen ∧
    (s.accept op bytes wl rl tm).result = s.result ∧ (s.accept op bytes wl rl tm).rdata = s.rdata ∧
    (s.accept op bytes wl rl tm).slaveAddr = s.slaveAddr ∧ (s.accept op bytes wl rl tm).tables = s.tables ∧
    (s.accept op bytes wl rl tm).rxbuf = s.rxbuf ∧ (s.accept op bytes wl rl tm).now = s.now ∧
    (s.accept op bytes wl rl tm).line = s.line ∧ (s.accept op bytes wl rl tm).results = s.results ∧
    (s.accept op bytes wl rl tm).offers = s.offers ∧ (s.accept op bytes wl rl tm).schedule = s.schedule ∧
    (s.accept op bytes wl rl tm).freeUses = s.freeUses :=
  ⟨rfl, rfl, rfl, rfl, rfl, rfl, rfl, rfl, rfl, rfl, rfl, rfl, rfl, rfl, rfl, rfl, rfl, rfl, rfl, rfl, rfl, rfl, rfl⟩

/-- What completing an exchange writes (42_transport.md R125 to R127). -/
@[simp] theorem complete_fields (s : State) (r : ResultCode) (p : Response) :
    (s.complete r p).cfg = s.cfg ∧ (s.complete r p).xstate = .idle ∧ (s.complete r p).curOp = .none ∧
    (s.complete r p).fb = s.fb ∧ (s.complete r p).wlen = s.wlen ∧ (s.complete r p).rlen = s.rlen ∧
    (s.complete r p).tmo = s.tmo ∧ (s.complete r p).ts = s.ts ∧ (s.complete r p).tp = s.tp ∧
    (s.complete r p).addr = s.addr ∧ (s.complete r p).rb = s.rb ∧ (s.complete r p).rbLen = s.rbLen ∧
    (s.complete r p).result = r ∧ (s.complete r p).rdata = s.rdata ∧ (s.complete r p).slaveAddr = s.slaveAddr ∧
    (s.complete r p).tables = s.tables ∧ (s.complete r p).rxbuf = s.rxbuf ∧ (s.complete r p).now = s.now ∧
    (s.complete r p).line = s.line ∧ (s.complete r p).results = s.results ++ [p] ∧ (s.complete r p).offers = s.offers ∧
    (s.complete r p).schedule = s.schedule ∧ (s.complete r p).freeUses = s.freeUses :=
  ⟨rfl, rfl, rfl, rfl, rfl, rfl, rfl, rfl, rfl, rfl, rfl, rfl, rfl, rfl, rfl, rfl, rfl, rfl, rfl, rfl, rfl, rfl, rfl⟩

/-- What completing RDREG writes (44_register_engine.md R172). -/
@[simp] theorem completeRdreg_fields (s : State) (v : Word) (r : ResultCode) :
    (s.completeRdreg v r).cfg = s.cfg ∧ (s.completeRdreg v r).xstate = .idle ∧ (s.completeRdreg v r).curOp = .none ∧
    (s.completeRdreg v r).fb = s.fb ∧ (s.completeRdreg v r).wlen = s.wlen ∧ (s.completeRdreg v r).rlen = s.rlen ∧
    (s.completeRdreg v r).tmo = s.tmo ∧ (s.completeRdreg v r).ts = s.ts ∧ (s.completeRdreg v r).tp = s.tp ∧
    (s.completeRdreg v r).addr = s.addr ∧ (s.completeRdreg v r).rb = s.rb ∧ (s.completeRdreg v r).rbLen = s.rbLen ∧
    (s.completeRdreg v r).result = r ∧ (s.completeRdreg v r).rdata = some v ∧
    (s.completeRdreg v r).slaveAddr = s.slaveAddr ∧ (s.completeRdreg v r).tables = s.tables ∧
    (s.completeRdreg v r).rxbuf = s.rxbuf ∧ (s.completeRdreg v r).now = s.now ∧ (s.completeRdreg v r).line = s.line ∧
    (s.completeRdreg v r).results = s.results ++ [.rdreg v r] ∧ (s.completeRdreg v r).offers = s.offers ∧
    (s.completeRdreg v r).schedule = s.schedule ∧ (s.completeRdreg v r).freeUses = s.freeUses :=
  ⟨rfl, rfl, rfl, rfl, rfl, rfl, rfl, rfl, rfl, rfl, rfl, rfl, rfl, rfl, rfl, rfl, rfl, rfl, rfl, rfl, rfl, rfl, rfl⟩

/-- What taking a reply writes (42_transport.md R126). -/
@[simp] theorem takeReply_fields (s : State) (n : Nibble) :
    (s.takeReply n).cfg = s.cfg ∧ (s.takeReply n).xstate = s.xstate ∧ (s.takeReply n).curOp = s.curOp ∧
    (s.takeReply n).fb = s.fb ∧ (s.takeReply n).wlen = s.wlen ∧ (s.takeReply n).rlen = s.rlen ∧
    (s.takeReply n).tmo = s.tmo ∧ (s.takeReply n).ts = s.ts ∧ (s.takeReply n).tp = s.tp ∧
    (s.takeReply n).addr = s.addr ∧ (s.takeReply n).rb = overlay (s.rxbuf.take n.toNat) s.rb ∧
    (s.takeReply n).rbLen = some n ∧ (s.takeReply n).result = s.result ∧ (s.takeReply n).rdata = s.rdata ∧
    (s.takeReply n).slaveAddr = s.slaveAddr ∧ (s.takeReply n).tables = s.tables ∧
    (s.takeReply n).rxbuf = s.rxbuf.drop n.toNat ∧ (s.takeReply n).now = s.now ∧ (s.takeReply n).line = s.line ∧
    (s.takeReply n).results = s.results ∧ (s.takeReply n).offers = s.offers ∧ (s.takeReply n).schedule = s.schedule ∧
    (s.takeReply n).freeUses = s.freeUses :=
  ⟨rfl, rfl, rfl, rfl, rfl, rfl, rfl, rfl, rfl, rfl, rfl, rfl, rfl, rfl, rfl, rfl, rfl, rfl, rfl, rfl, rfl, rfl, rfl⟩

/-- What reset writes, and that everything outside the block stays (10_state.md R36, R37). -/
@[simp] theorem resetBlock_fields (s : State) :
    (s.resetBlock).cfg = s.cfg ∧ (s.resetBlock).xstate = .idle ∧ (s.resetBlock).curOp = .none ∧
    (s.resetBlock).fb = unwrittenBytes s.cfg.maxXfer ∧ (s.resetBlock).wlen = none ∧ (s.resetBlock).rlen = none ∧
    (s.resetBlock).tmo = none ∧ (s.resetBlock).ts = none ∧ (s.resetBlock).tp = none ∧ (s.resetBlock).addr = none ∧
    (s.resetBlock).rb = unwrittenBytes s.cfg.maxXfer ∧ (s.resetBlock).rbLen = none ∧ (s.resetBlock).result = .none ∧
    (s.resetBlock).rdata = none ∧ (s.resetBlock).slaveAddr = s.cfg.slaveAddrReset ∧
    (s.resetBlock).tables = Memory.reset s.cfg.nCrcTables ∧ (s.resetBlock).rxbuf = s.rxbuf ∧
    (s.resetBlock).now = s.now ∧ (s.resetBlock).line = s.line ∧ (s.resetBlock).results = s.results ∧
    (s.resetBlock).offers = s.offers ∧ (s.resetBlock).schedule = s.schedule ∧ (s.resetBlock).freeUses = s.freeUses :=
  ⟨rfl, rfl, rfl, rfl, rfl, rfl, rfl, rfl, rfl, rfl, rfl, rfl, rfl, rfl, rfl, rfl, rfl, rfl, rfl, rfl, rfl, rfl, rfl⟩

/-- A byte that arrives touches RXBUF and the model's own counter, nothing else (60_exceptions.md R212). -/
@[simp] theorem appendByte_fields (s : State) (b : Byte) :
    (s.appendByte b).cfg = s.cfg ∧ (s.appendByte b).xstate = s.xstate ∧ (s.appendByte b).curOp = s.curOp ∧
    (s.appendByte b).fb = s.fb ∧ (s.appendByte b).wlen = s.wlen ∧ (s.appendByte b).rlen = s.rlen ∧
    (s.appendByte b).tmo = s.tmo ∧ (s.appendByte b).ts = s.ts ∧ (s.appendByte b).tp = s.tp ∧
    (s.appendByte b).addr = s.addr ∧ (s.appendByte b).rb = s.rb ∧ (s.appendByte b).rbLen = s.rbLen ∧
    (s.appendByte b).result = s.result ∧ (s.appendByte b).rdata = s.rdata ∧ (s.appendByte b).slaveAddr = s.slaveAddr ∧
    (s.appendByte b).tables = s.tables ∧ (s.appendByte b).now = s.now ∧ (s.appendByte b).line = s.line ∧
    (s.appendByte b).results = s.results ∧ (s.appendByte b).offers = s.offers ∧
    (s.appendByte b).schedule = s.schedule := by
  unfold State.appendByte
  split <;> simp

/-- The same for several bytes. -/
@[simp] theorem appendBytes_fields (s : State) (bs : List Byte) :
    (s.appendBytes bs).cfg = s.cfg ∧ (s.appendBytes bs).xstate = s.xstate ∧ (s.appendBytes bs).curOp = s.curOp ∧
    (s.appendBytes bs).fb = s.fb ∧ (s.appendBytes bs).wlen = s.wlen ∧ (s.appendBytes bs).rlen = s.rlen ∧
    (s.appendBytes bs).tmo = s.tmo ∧ (s.appendBytes bs).ts = s.ts ∧ (s.appendBytes bs).tp = s.tp ∧
    (s.appendBytes bs).addr = s.addr ∧ (s.appendBytes bs).rb = s.rb ∧ (s.appendBytes bs).rbLen = s.rbLen ∧
    (s.appendBytes bs).result = s.result ∧ (s.appendBytes bs).rdata = s.rdata ∧
    (s.appendBytes bs).slaveAddr = s.slaveAddr ∧ (s.appendBytes bs).tables = s.tables ∧ (s.appendBytes bs).now = s.now ∧
    (s.appendBytes bs).line = s.line ∧ (s.appendBytes bs).results = s.results ∧ (s.appendBytes bs).offers = s.offers ∧
    (s.appendBytes bs).schedule = s.schedule := by
  induction bs generalizing s with
  | nil => simp [State.appendBytes]
  | cons b bs ih => simpa [State.appendBytes] using ih (s.appendByte b)

end Sys2Proof.Machine
end

