-- ==== Sys2Proof/Laws/Ops.lean ====
section
/-! SUPPORT. For each shared operation, what it does, said once. -/

namespace Sys2Proof.Machine

/-! ## Latch arrays -/

/-- Byte `i` after an overlay: the new byte where there is one, the old one elsewhere. -/
theorem overlay_getElem? (bs : List Byte) (a : List (Option Byte)) (i : Nat) :
    (overlay bs a)[i]? = if i < bs.length then bs[i]?.map some else a[i]? := by
  unfold overlay
  split
  · rw [List.getElem?_append_left (by simpa), List.getElem?_map]
  · rename_i h
    rw [List.getElem?_append_right (by simpa using h), List.getElem?_drop]
    congr 1
    simp at h ⊢
    omega

/-- An overlay that fits keeps the array's size. -/
theorem length_overlay {bs : List Byte} {a : List (Option Byte)} (h : bs.length ≤ a.length) :
    (overlay bs a).length = a.length := by
  simp [overlay]
  omega

/-- What an overlay wrote is read back. -/
@[simp] theorem latchBytes_overlay (s : State) (bs : List Byte) (a : List (Option Byte)) :
    s.latchBytes (overlay bs a) bs.length = bs := by
  apply List.ext_getElem
  · simp [State.latchBytes]
  · intro i h1 h2
    simp [State.latchBytes, State.latchByte, overlay_getElem?, h2]

/-- One byte that an overlay wrote is read back. -/
theorem latchByte_overlay (s : State) {bs : List Byte} (a : List (Option Byte)) {i : Nat} (h : i < bs.length) :
    s.latchByte (overlay bs a) i = bs[i] := by
  simp [State.latchByte, overlay_getElem?, h]

/-- Bytes that are written are read as they are. -/
theorem latchBytes_eq (s : State) {a : List (Option Byte)} {bs : List Byte}
    (h : ∀ i (_ : i < bs.length), a[i]? = some (some bs[i])) : s.latchBytes a bs.length = bs := by
  apply List.ext_getElem
  · simp [State.latchBytes]
  · intro i h1 h2
    simp [State.latchBytes, State.latchByte, h i h2]

@[simp] theorem length_latchBytes (s : State) (a : List (Option Byte)) (n : Nat) : (s.latchBytes a n).length = n := by
  simp [State.latchBytes]

/-- A latch that is written is read as it is (10_state.md R15). -/
@[simp] theorem latchNibble_some (s : State) (v : Nibble) : s.latchNibble (some v) = v := rfl

@[simp] theorem latchClock_some (s : State) (v : Nat) : s.latchClock (some v) = v := rfl

/-! ## The clock -/

theorem clockRange_pos (c : Config) : 0 < c.clockRange := Nat.two_pow_pos _

/-- Elapsed time is a number of CLOCK_BITS bits (60_exceptions.md R204). -/
theorem elapsedSince_lt (s : State) (t : Nat) : s.elapsedSince t < s.cfg.clockRange :=
  Nat.mod_lt _ (clockRange_pos _)

/-- So is NOW after the clock has moved (60_exceptions.md R205). -/
theorem tick_now_lt (s : State) (more : Nat) : (s.tick more).now < s.cfg.clockRange :=
  Nat.mod_lt _ (clockRange_pos _)

/-- A clock move adds to the time elapsed since any reading, modulo `2^CLOCK_BITS` (60_exceptions.md R204, R205). -/
theorem elapsedSince_tick (s : State) (more : Nat) (t : Nat) :
    (s.tick more).elapsedSince t = (s.elapsedSince t + (more + 1)) % s.cfg.clockRange := by
  simp only [State.elapsedSince, tick_fields]
  rw [Nat.mod_add_mod, Nat.mod_add_mod]
  congr 1
  omega

/-- No time has elapsed since the present reading. -/
theorem elapsedSince_now (s : State) : s.elapsedSince s.now = 0 := by
  rw [State.elapsedSince, ← Nat.mod_add_mod, Nat.add_sub_cancel' (Nat.mod_lt _ (clockRange_pos _)).le, Nat.mod_self]

/-! ## The bus primitive -/

/-- A byte that arrives below capacity is appended (60_exceptions.md R212). -/
theorem appendByte_of_room {s : State} {b : Byte} (h : s.rxbuf.length < s.cfg.rxCap) :
    s.appendByte b = { s with rxbuf := s.rxbuf ++ [b] } := by
  simp [State.appendByte, h]

/-- After a byte arrived RXBUF is within RX_CAP (10_state.md R31). -/
theorem appendByte_rxbuf_le (s : State) (b : Byte) : (s.appendByte b).rxbuf.length ≤ s.cfg.rxCap := by
  unfold State.appendByte
  split
  · simpa using by omega
  · exact List.length_take_le _ _

theorem appendBytes_rxbuf_le {s : State} {bs : List Byte} (h : s.rxbuf.length ≤ s.cfg.rxCap) :
    (s.appendBytes bs).rxbuf.length ≤ s.cfg.rxCap := by
  induction bs generalizing s with
  | nil => exact h
  | cons b bs ih => simpa [State.appendBytes] using ih (s := s.appendByte b) (by simpa using appendByte_rxbuf_le s b)

/-- Bytes that find room are appended in their order (20_memory.md R43). -/
theorem appendBytes_of_room {s : State} {bs : List Byte} (h : s.rxbuf.length + bs.length ≤ s.cfg.rxCap) :
    s.appendBytes bs = { s with rxbuf := s.rxbuf ++ bs } := by
  induction bs generalizing s with
  | nil => simp [State.appendBytes]
  | cons b bs ih =>
    simp only [List.length_cons] at h
    rw [State.appendBytes, appendByte_of_room (by omega), ih (by simp; omega)]
    simp

/-! ## Acceptance, tables -/

/-- An operation that answers a next state was accepted: XSTATE was IDLE (10_state.md R16). -/
theorem whenIdle_next {s s' : State} {o : Outcome} (h : s.whenIdle o = .next s') : s.xstate = .idle ∧ o = .next s' := by
  unfold State.whenIdle at h
  split at h
  · exact ⟨‹_›, h⟩
  · cases h

theorem whenIdle_idle {s : State} {o : Outcome} (h : s.xstate = .idle) : s.whenIdle o = o := by
  simp [State.whenIdle, h]

theorem whenIdle_busy {s : State} {o : Outcome} (h : s.xstate ≠ .idle) : s.whenIdle o = .refused .busy := by
  unfold State.whenIdle
  split
  · exact absurd ‹_› h
  · rfl

/-- An operation that answers a next state found its table there and seeded (41_checksum.md R103). -/
theorem withTable_next {s s' : State} {k : Nat} {f : CrcTable → Outcome} (h : s.withTable k f = .next s') :
    ∃ t, s.tables[k]? = some (some t) ∧ f t = .next s' := by
  unfold State.withTable at h
  split at h
  · cases h
  · cases h
  · exact ⟨_, ‹_›, h⟩

theorem withTable_seeded {s : State} {k : Nat} {t : CrcTable} {f : CrcTable → Outcome}
    (h : s.tables[k]? = some (some t)) : s.withTable k f = f t := by
  simp [State.withTable, h]

theorem withTable_unseeded {s : State} {k : Nat} {f : CrcTable → Outcome} (h : s.tables[k]? = some none) :
    s.withTable k f = .fault .crcTableUnseeded := by
  simp [State.withTable, h]

theorem withTable_absent {s : State} {k : Nat} {f : CrcTable → Outcome} (h : s.tables.length ≤ k) :
    s.withTable k f = .refused .badTableIndex := by
  simp [State.withTable, List.getElem?_eq_none h]

/-- SEEDED[k] is that table `k` is there (10_state.md R17). -/
theorem seeded_iff {s : State} {k : Nat} : s.seeded k = true ↔ ∃ t, s.tables[k]? = some (some t) := by
  unfold State.seeded
  split
  · exact ⟨fun _ => ⟨_, ‹_›⟩, fun _ => rfl⟩
  · rename_i h
    exact ⟨fun h' => by simp at h', fun ⟨t, ht⟩ => absurd ht (h t)⟩

end Sys2Proof.Machine
end

