-- ==== Sys2Proof/Laws/Exec.lean ====
section
/-! SUPPORT. What each meaning does when it answers a next state, said once, and what any instruction can do at all. -/

namespace Sys2Proof.Machine

/-- Which accept step an exchange began with (42_transport.md R121, 44_register_engine.md R171, R172; log 6). -/
inductive Accepted (s : State) : Instr → State → Prop where
  | xchg (data : List Byte) (wl rl : Nibble) (tm : Nat) (hw : wl.toNat ≤ s.cfg.maxXfer)
      (hr : rl.toNat ≤ s.cfg.maxXfer) :
      Accepted s (.xchg data wl rl tm) (s.accept .xchg (data.take wl.toNat) wl rl tm)
  | wrreg (a : Byte) (v : Word) (t : CrcTable) (ht : s.tables[s.cfg.crcIndex]? = some (some t)) :
      Accepted s (.wrreg a v) { s.accept .wrreg (encodeWrite t s.cfg.sync s.slaveAddr a v) Config.writeLen 0
        s.cfg.timeoutMs with addr := some (logicalAddr a) }
  | rdreg (a : Byte) (t : CrcTable) (ht : s.tables[s.cfg.crcIndex]? = some (some t)) :
      Accepted s (.rdreg a) { s.accept .rdreg (encodeReadRequest t s.cfg.sync s.slaveAddr a) Config.readreqLen
        Config.replyLen s.cfg.timeoutMs with addr := some (logicalAddr a) }
  | frameWrite (sl : Byte) (a : RegAddr) (v : Word) (c : Byte) :
      Accepted s (.frameWrite sl a v c)
        (s.accept .xchg (writeBody s.cfg.sync sl a v ++ [c]) Config.writeLen 0 s.cfg.timeoutMs)
  | frameReadreq (sl : Byte) (a : RegAddr) (c : Byte) :
      Accepted s (.frameReadreq sl a c)
        (s.accept .xchg (readreqBody s.cfg.sync sl a ++ [c]) Config.readreqLen Config.replyLen s.cfg.timeoutMs)

/-- Everything an instruction can do when it answers a next state. -/
inductive Effect (s : State) : Instr → State → Prop where
  /-- CRC.INITTABLE writes one table -/
  | seed (poly : Byte) (reflected : Bool) (k : Byte) (hk : k.toNat < s.tables.length) :
      Effect s (.crcInittable poly reflected k) (s.writeTable k.toNat (mkTable poly reflected))
  /-- a single-step operation with a result delivers it and changes nothing else -/
  | deliver (i : Instr) (r : Response) : Effect s i (s.deliver r)
  /-- one whose result has no value in the spec delivers a free one (log 14) -/
  | deliverFree (i : Instr) (f : Nat → Response) : Effect s i (s.deliverFree f)
  /-- CSRRW writes SLAVE_ADDR -/
  | slaveAddr (v : Word) : Effect s (.csrrw 0 v) { s with slaveAddr := v.setWidth 8 }
  /-- an exchange is accepted -/
  | accept (i : Instr) (s' : State) (h : Accepted s i s') : Effect s i s'
  /-- a reply frame's bytes arrive -/
  | arrive (b0 b1 : Byte) (f : Bool) (a : RegAddr) (v : Word) (c : Byte) :
      Effect s (.frameReply b0 b1 f a v c) (s.appendBytes (replyBody b0 b1 f a v ++ [c]))

theorem execCrcInittable_next {poly : Byte} {reflected : Bool} {k : Byte} {s s' : State}
    (h : execCrcInittable poly reflected k s = .next s') :
    s.xstate = .idle ∧ k.toNat < s.tables.length ∧ s' = s.writeTable k.toNat (mkTable poly reflected) := by
  obtain ⟨hi, h⟩ := whenIdle_next h
  split at h
  · cases h
  · rename_i hk
    exact ⟨hi, not_le.1 hk, by cases h; rfl⟩

theorem execCrcCalc_next {data : List Byte} {n : Nibble} {k : Byte} {s s' : State}
    (h : execCrcCalc data n k s = .next s') :
    s.xstate = .idle ∧ ∃ t, s.tables[k.toNat]? = some (some t) ∧
      s' = if n.toNat ≤ s.cfg.maxXfer then s.deliver (.crc (checksum t (data.take n.toNat)))
        else s.deliverFree fun k => .crc (Config.freeCrc k) := by
  obtain ⟨hi, h⟩ := whenIdle_next h
  obtain ⟨t, ht, h⟩ := withTable_next h
  refine ⟨hi, t, ht, ?_⟩
  split at h <;> rw [← Host.Outcome.next.inj h]
  · rw [if_pos ‹_›]
  · rw [if_neg ‹_›]

theorem execCrcCheck_next {data : List Byte} {n : Nibble} {k : Byte} {s s' : State}
    (h : execCrcCheck data n k s = .next s') :
    s.xstate = .idle ∧ n ≠ 0 ∧ ∃ t, s.tables[k.toNat]? = some (some t) ∧
      s' = if n.toNat ≤ s.cfg.maxXfer then s.deliver (.check (checksumMatches t (data.take n.toNat)))
        else s.deliverFree fun k => .check (Config.freeCheck k) := by
  obtain ⟨hi, h⟩ := whenIdle_next h
  split at h
  · cases h
  · obtain ⟨t, ht, h⟩ := withTable_next h
    refine ⟨hi, ‹_›, t, ht, ?_⟩
    split at h <;> rw [← Host.Outcome.next.inj h]
    · rw [if_pos ‹_›]
    · rw [if_neg ‹_›]

theorem execXchg_next {data : List Byte} {wl rl : Nibble} {tm : Nat} {s s' : State}
    (h : execXchg data wl rl tm s = .next s') :
    s.xstate = .idle ∧ wl.toNat ≤ s.cfg.maxXfer ∧ rl.toNat ≤ s.cfg.maxXfer ∧
      s' = s.accept .xchg (data.take wl.toNat) wl rl tm := by
  obtain ⟨hi, h⟩ := whenIdle_next h
  split at h
  · cases h
  · rename_i hn
    simp only [not_or, not_lt] at hn
    exact ⟨hi, hn.1, hn.2, by cases h; rfl⟩

theorem execEncWrite_next {sl a : Byte} {v : Word} {s s' : State} (h : execEncWrite sl a v s = .next s') :
    s.xstate = .idle ∧ ∃ t, s.tables[s.cfg.crcIndex]? = some (some t) ∧
      s' = s.deliver (.frame (encodeWrite t s.cfg.sync sl a v)) := by
  obtain ⟨hi, h⟩ := whenIdle_next h
  obtain ⟨t, ht, h⟩ := withTable_next h
  exact ⟨hi, t, ht, by cases h; rfl⟩

theorem execEncReadreq_next {sl a : Byte} {s s' : State} (h : execEncReadreq sl a s = .next s') :
    s.xstate = .idle ∧ ∃ t, s.tables[s.cfg.crcIndex]? = some (some t) ∧
      s' = s.deliver (.frame (encodeReadRequest t s.cfg.sync sl a)) := by
  obtain ⟨hi, h⟩ := whenIdle_next h
  obtain ⟨t, ht, h⟩ := withTable_next h
  exact ⟨hi, t, ht, by cases h; rfl⟩

theorem execDecReply_next {data : Vector Byte 8} {n : Nibble} {s s' : State} (h : execDecReply data n s = .next s') :
    s.xstate = .idle ∧ n = 8 ∧ ∃ t, s.tables[s.cfg.crcIndex]? = some (some t) ∧
      s' = s.deliver (.decoded (decodeReply t data)) := by
  obtain ⟨hi, h⟩ := whenIdle_next h
  split at h
  · cases h
  · obtain ⟨t, ht, h⟩ := withTable_next h
    exact ⟨hi, not_not.1 ‹_›, t, ht, by cases h; rfl⟩

theorem execWrreg_next {a : Byte} {v : Word} {s s' : State} (h : execWrreg a v s = .next s') :
    s.xstate = .idle ∧ Accepted s (.wrreg a v) s' := by
  obtain ⟨hi, h⟩ := whenIdle_next h
  obtain ⟨t, ht, h⟩ := withTable_next h
  cases h
  exact ⟨hi, .wrreg a v t ht⟩

theorem execRdreg_next {a : Byte} {s s' : State} (h : execRdreg a s = .next s') :
    s.xstate = .idle ∧ Accepted s (.rdreg a) s' := by
  obtain ⟨hi, h⟩ := whenIdle_next h
  obtain ⟨t, ht, h⟩ := withTable_next h
  cases h
  exact ⟨hi, .rdreg a t ht⟩

theorem execCsrrw_next {c : Byte} {v : Word} {s s' : State} (h : execCsrrw c v s = .next s') :
    s.xstate = .idle ∧ c = 0 ∧ s' = { s with slaveAddr := v.setWidth 8 } := by
  obtain ⟨hi, h⟩ := whenIdle_next h
  split at h
  · exact ⟨hi, ‹_›, by cases h; rfl⟩
  · cases h

theorem execCsrr_next {c : Byte} {s s' : State} (h : execCsrr c s = .next s') :
    s.xstate = .idle ∧ ∃ w, s.readCsr c.toNat = .value w ∧ s' = s.deliver (.csr w) := by
  obtain ⟨hi, h⟩ := whenIdle_next h
  split at h
  · exact ⟨hi, _, ‹_›, by cases h; rfl⟩
  · cases h
  · cases h

theorem execReserved_refused (c : Nibble) (s : State) :
    execReserved c s = .refused .badOp ∨ execReserved c s = .refused .busy := by
  unfold execReserved State.whenIdle
  split
  · exact .inl rfl
  · exact .inr rfl

theorem execFrameWrite_next {sl : Byte} {a : RegAddr} {v : Word} {c : Byte} {s s' : State}
    (h : execFrameWrite sl a v c s = .next s') : s.xstate = .idle ∧ Accepted s (.frameWrite sl a v c) s' := by
  obtain ⟨hi, h⟩ := whenIdle_next h
  obtain rfl := Host.Outcome.next.inj h
  exact ⟨hi, .frameWrite sl a v c⟩

theorem execFrameReadreq_next {sl : Byte} {a : RegAddr} {c : Byte} {s s' : State}
    (h : execFrameReadreq sl a c s = .next s') : s.xstate = .idle ∧ Accepted s (.frameReadreq sl a c) s' := by
  obtain ⟨hi, h⟩ := whenIdle_next h
  obtain rfl := Host.Outcome.next.inj h
  exact ⟨hi, .frameReadreq sl a c⟩

theorem execFrameReply_next {b0 b1 : Byte} {f : Bool} {a : RegAddr} {v : Word} {c : Byte} {s s' : State}
    (h : execFrameReply b0 b1 f a v c s = .next s') : s' = s.appendBytes (replyBody b0 b1 f a v ++ [c]) :=
  (Host.Outcome.next.inj h).symm

/-- An instruction that answers a next state has one of these effects, and all but an arriving frame were accepted with XSTATE
IDLE (10_state.md R16). -/
theorem exec_effect {i : Instr} {s s' : State} (h : exec i s = .next s') :
    Effect s i s' ∧ ((∃ b0 b1 f a v c, i = .frameReply b0 b1 f a v c) ∨ s.xstate = .idle) := by
  cases i with
  | crcInittable p r k =>
    obtain ⟨hi, hk, rfl⟩ := execCrcInittable_next h
    exact ⟨.seed p r k hk, .inr hi⟩
  | crcCalc d n k =>
    obtain ⟨hi, t, -, rfl⟩ := execCrcCalc_next h
    split
    · exact ⟨.deliver _ _, .inr hi⟩
    · exact ⟨.deliverFree _ _, .inr hi⟩
  | crcCheck d n k =>
    obtain ⟨hi, -, t, -, rfl⟩ := execCrcCheck_next h
    split
    · exact ⟨.deliver _ _, .inr hi⟩
    · exact ⟨.deliverFree _ _, .inr hi⟩
  | xchg d wl rl tm =>
    obtain ⟨hi, hw, hr, rfl⟩ := execXchg_next h
    exact ⟨.accept _ _ (.xchg d wl rl tm hw hr), .inr hi⟩
  | encWrite sl a v =>
    obtain ⟨hi, t, -, rfl⟩ := execEncWrite_next h
    exact ⟨.deliver _ _, .inr hi⟩
  | encReadreq sl a =>
    obtain ⟨hi, t, -, rfl⟩ := execEncReadreq_next h
    exact ⟨.deliver _ _, .inr hi⟩
  | decReply d n =>
    obtain ⟨hi, -, t, -, rfl⟩ := execDecReply_next h
    exact ⟨.deliver _ _, .inr hi⟩
  | wrreg a v => exact ⟨.accept _ _ (execWrreg_next h).2, .inr (execWrreg_next h).1⟩
  | rdreg a => exact ⟨.accept _ _ (execRdreg_next h).2, .inr (execRdreg_next h).1⟩
  | csrrw c v =>
    obtain ⟨hi, rfl, rfl⟩ := execCsrrw_next h
    exact ⟨.slaveAddr v, .inr hi⟩
  | csrr c =>
    obtain ⟨hi, w, -, rfl⟩ := execCsrr_next h
    exact ⟨.deliver _ _, .inr hi⟩
  | reserved c => rcases execReserved_refused c s with h' | h' <;> rw [exec, h'] at h <;> cases h
  | frameWrite sl a v c =>
    simp only [exec] at h
    obtain ⟨hi, h⟩ := execFrameWrite_next h
    exact ⟨.accept _ _ h, .inr hi⟩
  | frameReadreq sl a c =>
    simp only [exec] at h
    obtain ⟨hi, h⟩ := execFrameReadreq_next h
    exact ⟨.accept _ _ h, .inr hi⟩
  | frameReply b0 b1 f a v c =>
    simp only [exec] at h
    have hs := execFrameReply_next h
    exact ⟨hs ▸ .arrive b0 b1 f a v c, .inl ⟨b0, b1, f, a, v, c, rfl⟩⟩

end Sys2Proof.Machine
end

