-- ==== Sys2Proof/Laws/PerInstr.lean ====
section
/-! SUPPORT. The layout of each instruction's transfer: on which channel it goes and how many bytes it takes
(spec/30_encoding.md R71 to R73, R83). One lemma per constructor. -/

namespace Sys2Proof.Laws.Layout

open Sys2Proof.Machine

/-- The channel an instruction goes on. -/
def channel : Instr → Channel
  | .frameWrite _ _ _ _ => .toDevice
  | .frameReadreq _ _ _ => .toDevice
  | .frameReply _ _ _ _ _ _ => .toBlock
  | .crcInittable _ _ _ => .command
  | .crcCalc _ _ _ => .command
  | .crcCheck _ _ _ => .command
  | .xchg _ _ _ _ => .command
  | .encWrite _ _ _ => .command
  | .encReadreq _ _ => .command
  | .decReply _ _ => .command
  | .wrreg _ _ => .command
  | .rdreg _ => .command
  | .csrrw _ _ => .command
  | .csrr _ => .command
  | .reserved _ => .command

/-- How many bytes carry an instruction: the lengths of R71 to R73 for a frame, a code byte and the operand fields of R83 for
an operation. -/
def size (cfg : Config) : Instr → Nat
  | .crcInittable _ _ _ => 4
  | .crcCalc _ _ _ => 3 + cfg.maxXfer
  | .crcCheck _ _ _ => 3 + cfg.maxXfer
  | .xchg _ _ _ _ => 3 + cfg.maxXfer + cfg.clockBytes
  | .encWrite _ _ _ => 7
  | .encReadreq _ _ => 3
  | .decReply _ _ => 10
  | .wrreg _ _ => 6
  | .rdreg _ => 2
  | .csrrw _ _ => 6
  | .csrr _ => 2
  | .reserved _ => 1
  | .frameWrite _ _ _ _ => 8
  | .frameReadreq _ _ _ => 4
  | .frameReply _ _ _ _ _ _ => 8

/-- A well-formed instruction's transfer has the channel and the size of its row, and its first byte is its command code if it
has one. -/
def Statement (i : Instr) : Prop :=
  ∀ cfg : Config, i.wf cfg = true → (encode cfg i).channel = channel i ∧ (encode cfg i).bytes.length = size cfg i ∧
    ∀ c, i.opCode = some c → (encode cfg i).bytes.head? = some (nibbleByte c)

theorem crcInittable (poly : Byte) (reflected : Bool) (index : Byte) : Statement (.crcInittable poly reflected index) := by
  rintro cfg -
  exact ⟨rfl, rfl, by rintro c ⟨⟩; rfl⟩

theorem crcCalc (data : List Byte) (n : Nibble) (index : Byte) : Statement (.crcCalc data n index) := by
  intro cfg h
  simp only [Instr.wf, beq_iff_eq] at h
  exact ⟨rfl, by simp [encode, size, h]; omega, by rintro c ⟨⟩; rfl⟩

theorem crcCheck (data : List Byte) (n : Nibble) (index : Byte) : Statement (.crcCheck data n index) := by
  intro cfg h
  simp only [Instr.wf, beq_iff_eq] at h
  exact ⟨rfl, by simp [encode, size, h]; omega, by rintro c ⟨⟩; rfl⟩

theorem xchg (data : List Byte) (wl rl : Nibble) (tm : Nat) : Statement (.xchg data wl rl tm) := by
  intro cfg h
  simp only [Instr.wf, Bool.and_eq_true, beq_iff_eq] at h
  exact ⟨rfl, by simp [encode, size, h]; omega, by rintro c ⟨⟩; rfl⟩

theorem encWrite (slave regAddr : Byte) (value : Word) : Statement (.encWrite slave regAddr value) := by
  rintro cfg -
  exact ⟨rfl, rfl, by rintro c ⟨⟩; rfl⟩

theorem encReadreq (slave regAddr : Byte) : Statement (.encReadreq slave regAddr) := by
  rintro cfg -
  exact ⟨rfl, rfl, by rintro c ⟨⟩; rfl⟩

theorem decReply (data : Vector Byte 8) (n : Nibble) : Statement (.decReply data n) := by
  rintro cfg -
  exact ⟨rfl, by simp [encode, size], by rintro c ⟨⟩; rfl⟩

theorem wrreg (address : Byte) (value : Word) : Statement (.wrreg address value) := by
  rintro cfg -
  exact ⟨rfl, rfl, by rintro c ⟨⟩; rfl⟩

theorem rdreg (address : Byte) : Statement (.rdreg address) := by
  rintro cfg -
  exact ⟨rfl, rfl, by rintro c ⟨⟩; rfl⟩

theorem csrrw (csr : Byte) (value : Word) : Statement (.csrrw csr value) := by
  rintro cfg -
  exact ⟨rfl, rfl, by rintro c ⟨⟩; rfl⟩

theorem csrr (csr : Byte) : Statement (.csrr csr) := by
  rintro cfg -
  exact ⟨rfl, rfl, by rintro c ⟨⟩; rfl⟩

theorem reserved (code : Nibble) : Statement (.reserved code) := by
  rintro cfg -
  exact ⟨rfl, rfl, by rintro c ⟨⟩; rfl⟩

theorem frameWrite (slave : Byte) (regAddr : RegAddr) (value : Word) (checksum : Byte) :
    Statement (.frameWrite slave regAddr value checksum) := by
  rintro cfg -
  exact ⟨rfl, rfl, by rintro c ⟨⟩⟩

theorem frameReadreq (slave : Byte) (regAddr : RegAddr) (checksum : Byte) :
    Statement (.frameReadreq slave regAddr checksum) := by
  rintro cfg -
  exact ⟨rfl, rfl, by rintro c ⟨⟩⟩

theorem frameReply (byte0 byte1 : Byte) (flag : Bool) (regAddr : RegAddr) (value : Word) (checksum : Byte) :
    Statement (.frameReply byte0 byte1 flag regAddr value checksum) := by
  rintro cfg -
  exact ⟨rfl, rfl, by rintro c ⟨⟩⟩

end Sys2Proof.Laws.Layout
end

