-- ==== Sys2Proof/Laws/Transport.lean ====
section
/-! SUPPORT. What one turn of the sequencer on an exchange in flight can do, said once (spec/42_transport.md R122 to R128). -/

namespace Sys2Proof.Machine

/-- The transitions of XSTATE, one constructor per rule. -/
inductive Turn (s : State) : State → Prop where
  /-- R122 -/
  | clear (hx : s.xstate = .clear) : Turn s { s.clearBuffers with xstate := .write }
  /-- R123 -/
  | write (hx : s.xstate = .write) :
      Turn s { s.transmit (s.latchBytes s.fb (s.latchNibble s.wlen).toNat) with ts := some s.now, xstate := .settle }
  /-- R124 -/
  | hold (hx : s.xstate = .settle) (he : s.elapsedSince (s.latchClock s.ts) < s.cfg.settleMs) : Turn s s
  /-- R125, nothing to read -/
  | written (hx : s.xstate = .settle) (he : s.cfg.settleMs ≤ s.elapsedSince (s.latchClock s.ts))
      (h0 : s.latchNibble s.rlen = 0) : Turn s (s.complete .written (writtenResponse s.curOp))
  /-- R125, a reply to wait for -/
  | startPoll (hx : s.xstate = .settle) (he : s.cfg.settleMs ≤ s.elapsedSince (s.latchClock s.ts))
      (h0 : s.latchNibble s.rlen ≠ 0) : Turn s { s with tp := some s.now, xstate := .poll }
  /-- R126, for XCHG -/
  | received (hx : s.xstate = .poll) (ha : (s.latchNibble s.rlen).toNat ≤ s.rxbuf.length) (ho : s.curOp ≠ .rdreg) :
      Turn s ((s.takeReply (s.latchNibble s.rlen)).complete .received
        (.xchg .received (s.received (s.latchNibble s.rlen).toNat)))
  /-- R126 with 44_register_engine.md R172, for RDREG: a reply with a matching checksum -/
  | value (hx : s.xstate = .poll) (ha : (s.latchNibble s.rlen).toNat ≤ s.rxbuf.length) (ho : s.curOp = .rdreg)
      (t : CrcTable) (ht : s.tables[s.cfg.crcIndex]? = some (some t)) (a : RegAddr) (v : Word)
      (hd : decodeReply t (s.takeReply (s.latchNibble s.rlen)).replyBytes = .ok a v) :
      Turn s ((s.takeReply (s.latchNibble s.rlen)).completeRdreg v .received)
  /-- R126 with 44_register_engine.md R172, for RDREG: a reply with another checksum -/
  | mismatch (hx : s.xstate = .poll) (ha : (s.latchNibble s.rlen).toNat ≤ s.rxbuf.length) (ho : s.curOp = .rdreg)
      (t : CrcTable) (ht : s.tables[s.cfg.crcIndex]? = some (some t))
      (hd : decodeReply t (s.takeReply (s.latchNibble s.rlen)).replyBytes = .checksumMismatch) :
      Turn s ((s.takeReply (s.latchNibble s.rlen)).completeRdreg s.cfg.staleSentinel .checksumMismatch)
  /-- R127, for XCHG -/
  | timedOut (hx : s.xstate = .poll) (ha : s.rxbuf.length < (s.latchNibble s.rlen).toNat)
      (he : s.latchClock s.tmo < s.elapsedSince (s.latchClock s.tp)) (ho : s.curOp ≠ .rdreg) :
      Turn s (s.complete .timedOut (.xchg .timedOut []))
  /-- R127 with 44_register_engine.md R172, for RDREG -/
  | sentinel (hx : s.xstate = .poll) (ha : s.rxbuf.length < (s.latchNibble s.rlen).toNat)
      (he : s.latchClock s.tmo < s.elapsedSince (s.latchClock s.tp)) (ho : s.curOp = .rdreg) :
      Turn s (s.completeRdreg s.cfg.staleSentinel .timedOut)
  /-- R128 -/
  | wait (hx : s.xstate = .poll) (ha : s.rxbuf.length < (s.latchNibble s.rlen).toNat)
      (he : s.elapsedSince (s.latchClock s.tp) ≤ s.latchClock s.tmo) : Turn s s

/-- A reply that was taken whole is what RDREG decodes (42_transport.md R126). -/
theorem replyBytes_takeReply {s : State} {bytes : Vector Byte 8} {more : List Byte} (h : s.rxbuf = bytes.toList ++ more) :
    (s.takeReply 8).replyBytes = bytes := by
  have hl : s.rxbuf.take (8 : Nibble).toNat = bytes.toList := by simp [h]
  refine Vector.ext fun i hi => ?_
  simp only [State.replyBytes, takeReply_fields, Vector.getElem_ofFn, hl]
  rw [latchByte_overlay _ _ (by simpa)]
  simp

/-- RDREG's end answers a next state exactly with the codec's table there, and decodes the reply (44_register_engine.md R172). -/
theorem finishRdreg_next {s s' : State} (h : finishRdreg s = .next s') :
    ∃ t, s.tables[s.cfg.crcIndex]? = some (some t) ∧
      ((∃ a v, decodeReply t s.replyBytes = .ok a v ∧ s' = s.completeRdreg v .received) ∨
        decodeReply t s.replyBytes = .checksumMismatch ∧ s' = s.completeRdreg s.cfg.staleSentinel .checksumMismatch) := by
  obtain ⟨t, ht, h⟩ := withTable_next h
  refine ⟨t, ht, ?_⟩
  split at h <;> cases h
  · exact .inl ⟨_, _, ‹_›, rfl⟩
  · exact .inr ⟨‹_›, rfl⟩

/-- A turn that answers a next state took one of the transitions. -/
theorem turnBusy_next {s s' : State} (hx : s.xstate ≠ .idle) (h : turnBusy s = .next s') : Turn s s' := by
  unfold turnBusy at h
  split at h
  · exact absurd ‹_› hx
  · cases h
    exact .clear ‹_›
  · cases h
    exact .write ‹_›
  · rename_i hs
    unfold turnSettle settleExit at h
    split at h
    · rename_i he
      cases h
      exact .hold hs he
    · rename_i he
      split at h <;> rename_i h0 <;> cases h
      · exact .written hs (not_lt.1 he) h0
      · exact .startPoll hs (not_lt.1 he) h0
  · rename_i hp
    unfold turnPoll at h
    split at h <;> rename_i ha
    · unfold pollComplete at h
      split at h
      · rename_i ho
        obtain ⟨t, ht, ⟨a, v, hd, rfl⟩ | ⟨hd, rfl⟩⟩ := finishRdreg_next h
        · exact .value hp ha ho t ht a v hd
        · exact .mismatch hp ha ho t ht hd
      · rename_i ho
        cases h
        exact .received hp ha ho
    · simp only [State.bytesAvailable, not_le] at ha
      split at h <;> rename_i he
      · unfold pollTimeout at h
        split at h <;> rename_i ho <;> cases h
        · exact .sentinel hp ha he ho
        · exact .timedOut hp ha he ho
      · cases h
        exact .wait hp ha (not_lt.1 he)

end Sys2Proof.Machine
end

