-- ==== Sys2Proof/Laws/Step.lean ====
section
/-! SUPPORT. What one step can do, said once, and what a step is in each situation. -/

namespace Sys2Proof.Machine

/-- The moves of the agents (10_state.md R10), one constructor each. -/
inductive Move (s : State) : State → Prop where
  /-- idle, nothing offered -/
  | idle (rest : List Event) (hn : s.sequencerNext rest) (hx : s.xstate = .idle) (ho : s.offers = []) :
      Move s { s with schedule := rest }
  /-- idle, an offer is taken -/
  | offer (rest : List Event) (hn : s.sequencerNext rest) (hx : s.xstate = .idle) (o : HostOffer) (os : List HostOffer)
      (ho : s.offers = o :: os) (i : Instr) (hd : decode s.cfg o.transfer = .ok i) (s' : State)
      (he : exec i { s with offers := os, schedule := rest } = .next s') : Move s s'
  /-- busy, a turn of the exchange in flight -/
  | busy (rest : List Event) (hn : s.sequencerNext rest) (hx : s.xstate ≠ .idle) (s' : State)
      (ht : Turn { s with schedule := rest } s') : Move s s'
  /-- a byte arrives -/
  | byte (b : Byte) (rest : List Event) (hn : s.schedule = .byte b :: rest) :
      Move s ({ s with schedule := rest }.appendByte b)
  /-- a reply frame arrives -/
  | arrive (bytes : List Byte) (rest : List Event) (hn : s.schedule = .arrive bytes :: rest) (i : Instr)
      (hd : decodeToBlock bytes = .ok i) (s' : State) (he : exec i { s with schedule := rest } = .next s') : Move s s'
  /-- the clock advances -/
  | clock (more : Nat) (rest : List Event) (hn : s.schedule = .clock more :: rest) :
      Move s ({ s with schedule := rest }.tick more)
  /-- reset -/
  | reset (rest : List Event) (hn : s.schedule = .reset :: rest) : Move s ({ s with schedule := rest }.resetBlock)

/-- The sequencer's turn, whether scheduled or because nothing is. -/
theorem nextAction_sequencer {s : State} {rest : List Event} (h : s.sequencerNext rest) :
    nextAction s = sequencerTurn { s with schedule := rest } := by
  unfold nextAction
  obtain h | ⟨h, rfl⟩ := h
  · simp [h]
  · have : { s with schedule := [] } = s := by cases s; simp_all
    simp [h, this]

/-- Idle with nothing offered: nothing happens (60_exceptions.md R215). -/
theorem step_idle {s : State} {rest : List Event} (hn : s.sequencerNext rest) (hx : s.xstate = .idle)
    (ho : s.offers = []) : step s = .next { s with schedule := rest } := by
  rw [step, nextAction_sequencer hn]
  simp [sequencerTurn, hx, ho]

/-- Idle with an offer: the instruction it decodes to runs, on the state without the offer (10_state.md R16). -/
theorem step_offer {s : State} {rest : List Event} {o : HostOffer} {os : List HostOffer} {i : Instr}
    (hn : s.sequencerNext rest) (hx : s.xstate = .idle) (ho : s.offers = o :: os)
    (hd : decode s.cfg o.transfer = .ok i) : step s = exec i { s with offers := os, schedule := rest } := by
  rw [step, nextAction_sequencer hn]
  simp [sequencerTurn, takeTransfer, hx, ho, hd]

/-- Busy, the sequencer goes on with the exchange whatever is offered (10_state.md R16). -/
theorem sequencerTurn_busy {s : State} (hx : s.xstate ≠ .idle) : sequencerTurn s = .done (turnBusy s) := by
  unfold sequencerTurn
  cases h : s.xstate <;> first | exact absurd h hx | rfl

/-- Busy: the exchange in flight goes on, the offers wait (10_state.md R16). -/
theorem step_busy {s : State} {rest : List Event} (hn : s.sequencerNext rest) (hx : s.xstate ≠ .idle) :
    step s = turnBusy { s with schedule := rest } := by
  rw [step, nextAction_sequencer hn, sequencerTurn_busy (s := { s with schedule := rest }) hx]

/-- A step that answers a next state is one of the moves. -/
theorem step_move {s s' : State} (h : step s = .next s') : Move s s' := by
  have seq : ∀ rest, s.sequencerNext rest → Move s s' := by
    intro rest hn
    by_cases hx : s.xstate = .idle
    · cases ho : s.offers with
      | nil =>
        rw [step_idle hn hx ho] at h
        cases h
        exact .idle rest hn hx ho
      | cons o os =>
        cases hd : decode s.cfg o.transfer with
        | ok i =>
          rw [step_offer hn hx ho hd] at h
          exact .offer rest hn hx o os ho i hd s' h
        | error e =>
          rw [step, nextAction_sequencer hn] at h
          simp [sequencerTurn, takeTransfer, hx, ho, hd] at h
    · rw [step_busy hn hx] at h
      exact .busy rest hn hx s' (turnBusy_next hx h)
  cases hs : s.schedule with
  | nil => exact seq [] (.inr ⟨hs, rfl⟩)
  | cons e rest =>
    cases e with
    | sequencer => exact seq rest (.inl hs)
    | byte b =>
      simp only [step, nextAction, hs] at h
      cases h
      exact .byte b rest hs
    | arrive bytes =>
      simp only [step, nextAction, hs, takeTransfer, decode] at h
      cases hd : decodeToBlock bytes with
      | ok i =>
        simp only [hd] at h
        exact .arrive bytes rest hs i hd s' h
      | error e => simp [hd] at h
    | clock more =>
      simp only [step, nextAction, hs] at h
      cases h
      exact .clock more rest hs
    | reset =>
      simp only [step, nextAction, hs] at h
      cases h
      exact .reset rest hs

end Sys2Proof.Machine
end

