-- ==== Sys2Proof/Tests/Slice0.lean ====
section
/-! SUPPORT. The model's own tests: well-formedness refusals, decoding of words written out from spec/30_encoding.md, one step of
each instruction against spec/95_test_vectors.md, and for each obligation with hypotheses a state and operands that meet them. -/

namespace Sys2Proof.Tests

open Sys2Proof.Machine

/-! ## Small states -/

/-- After reset and `CRC.INITTABLE 0x07, 1, 1`. -/
def seeded : State := State.reset.writeTable 1 (mkTable 0x07 true)

/-- What the last transfer of the result port was after an outcome. -/
def lastResult : Outcome → Option Response
  | .next s => s.results.getLast?
  | _ => none

/-- A field of the state after an outcome. -/
def after {α : Type} (f : State → α) : Outcome → Option α
  | .next s => some (f s)
  | _ => none

/-- Eight byte lines. -/
def lines8 : List Byte := [0x01, 0x02, 0x03, 0x04, 0x05, 0x06, 0x07, 0x08]

/-- The reply of 95_test_vectors.md 3.3, first row. -/
def goodReply : List Byte := [0x05, 0xFF, 0x06, 0x20, 0x00, 0x01, 0x40, 0xC8]

/-- The same bytes as DEC.REPLY's operand. -/
def goodReplyV : Vector Byte 8 := #v[0x05, 0xFF, 0x06, 0x20, 0x00, 0x01, 0x40, 0xC8]

/-- An exchange of `[05 00 06 6F]`, 8 bytes to read, 10 ms, in some state of the sequencer. -/
def flying (op : CurOp) (x : XState) : State :=
  { seeded.accept op [0x05, 0x00, 0x06, 0x6F] 4 8 10 with
    xstate := x, ts := some 5000, tp := some 5002, now := 5002, addr := some 0x06 }

/-- A write-only exchange of `[05 00 90 00 07 17 03 3B]` whose settling delay is over. -/
def settled (op : CurOp) : State :=
  { seeded.accept op [0x05, 0x00, 0x90, 0x00, 0x07, 0x17, 0x03, 0x3B] 8 0 10 with
    xstate := .settle, ts := some 1000, now := 1002, addr := some 0x10 }

/-! ## Well-formedness: an ill-formed term for each check -/

/-- Another build of the block: ten byte lines and a clock of 12 bits. -/
def otherBuild : Config := { Config.default with maxXfer := 10, clockBits := 12 }

theorem test_wf_calc : (Instr.crcCalc [1, 2, 3] 3 1).wf Config.default = false := by decide
theorem test_wf_check : (Instr.crcCheck [] 0 1).wf Config.default = false := by decide
theorem test_wf_xchg_lines : (Instr.xchg (lines8 ++ [0x09]) 8 0 10).wf Config.default = false := by decide
theorem test_wf_xchg_timeout : (Instr.xchg lines8 8 0 0x100000000).wf Config.default = false := by decide
theorem test_wf_reserved : (Instr.reserved 0xA).wf Config.default = false := by decide
theorem test_wf_accepts :
    (Instr.xchg lines8 9 0 0xFFFFFFFF).wf Config.default = true ∧ (Instr.reserved 0xB).wf Config.default = true ∧
      (Instr.xchg (lines8 ++ [0x09, 0x0A]) 10 0 0xFFF).wf otherBuild = true := by decide

/-! ## Decoding: words written out from 30_encoding.md R71 to R73 and R83 -/

/-- A port image under the default parameters. -/
def port (bytes : List Byte) : Except DecodeError Instr := decode Config.default ⟨.command, bytes⟩

theorem test_decode_crcInittable : port [0x00, 0x07, 0x01, 0x02] = .ok (.crcInittable 0x07 true 0x02) := by rfl
theorem test_decode_crcCalc : port ([0x01] ++ lines8 ++ [0x03, 0x01]) = .ok (.crcCalc lines8 3 1) := by rfl
theorem test_decode_crcCheck : port ([0x02] ++ lines8 ++ [0x0F, 0xFE]) = .ok (.crcCheck lines8 15 0xFE) := by rfl
theorem test_decode_xchg : port ([0x03] ++ lines8 ++ [0x04, 0x08, 0x12, 0x34, 0x56, 0x78]) =
    .ok (.xchg lines8 4 8 0x12345678) := by rfl
/-- Ten byte lines and a 12-bit timeout in two bytes (R83, 42_transport.md R120). -/
theorem test_decode_xchg_otherBuild :
    decode otherBuild ⟨.command, [0x03] ++ lines8 ++ [0x09, 0x0A, 0x0A, 0x08, 0x0F, 0xFF]⟩ =
        .ok (.xchg (lines8 ++ [0x09, 0x0A]) 10 8 0xFFF) ∧
      decode otherBuild ⟨.command, [0x03] ++ lines8 ++ [0x09, 0x0A, 0x0A, 0x08, 0x10, 0x00]⟩ = .error .padding := by
  constructor <;> rfl
theorem test_decode_encWrite : port [0x04, 0x01, 0x22, 0xFF, 0xFF, 0xFE, 0x0C] =
    .ok (.encWrite 0x01 0x22 0xFFFFFE0C) := by rfl
theorem test_decode_encReadreq : port [0x05, 0x03, 0x6F] = .ok (.encReadreq 0x03 0x6F) := by rfl
theorem test_decode_decReply : port ([0x06] ++ goodReply ++ [0x08]) = .ok (.decReply goodReplyV 8) := by rfl
theorem test_decode_wrreg : port [0x07, 0x10, 0x00, 0x07, 0x17, 0x03] = .ok (.wrreg 0x10 0x00071703) := by rfl
theorem test_decode_rdreg : port [0x08, 0x41] = .ok (.rdreg 0x41) := by rfl
theorem test_decode_csrrw : port [0x09, 0x00, 0x12, 0x34, 0x56, 0x03] = .ok (.csrrw 0x00 0x12345603) := by rfl
theorem test_decode_csrr : port [0x0A, 0x63] = .ok (.csrr 0x63) := by rfl
theorem test_decode_reserved : port [0x0B] = .ok (.reserved 0xB) ∧ port [0x0F, 0xFF] = .ok (.reserved 0xF) := by
  constructor <;> rfl
/-- `00000101 ssssssss 1aaaaaaa vvvvvvvv vvvvvvvv vvvvvvvv vvvvvvvv cccccccc` (R71). -/
theorem test_decode_frameWrite :
    decodeTableWord 64 0b0000010100000011111011000001000000000000000000000101001100000110 =
      some (.frameWrite 0x03 0x6C 0x10000053 0x06) := by decide
/-- `00000101 ssssssss 0aaaaaaa cccccccc` (R72). -/
theorem test_decode_frameReadreq :
    decodeTableWord 32 0b00000101000000010010001000100101 = some (.frameReadreq 0x01 0x22 0x25) := by decide
/-- `xxxxxxxx xxxxxxxx xaaaaaaa vvvvvvvv vvvvvvvv vvvvvvvv vvvvvvvv cccccccc` (R73). -/
theorem test_decode_frameReply :
    decodeTableWord 64 0b1010101001010101000100101000000000000000000000000000000000110001 =
      some (.frameReply 0xAA 0x55 false 0x12 0x80000000 0x31) := by decide
theorem test_decode_rejects :
    port [] = .error .truncated ∧ port [0x10] = .error .padding ∧ port [0x00, 0x07, 0x02, 0x01] = .error .padding ∧
      decode Config.default ⟨.toDevice, [0x06, 0x00, 0x06, 0x6F]⟩ = .error .badSync ∧
      decode Config.default ⟨.toDevice, [0x05, 0x00, 0x86, 0x6F]⟩ = .error .badFlag ∧
      decode Config.default ⟨.toBlock, [0x05, 0x00, 0x06, 0x6F]⟩ = .error .badFrameLength := by
  refine ⟨?_, ?_, ?_, ?_, ?_, ?_⟩ <;> rfl

/-! ## One step of each instruction, from 95_test_vectors.md -/

/-- 2.1: entries 00, 01, 07, 80 and FF of both tables. -/
theorem test_crcInittable :
    [0x00, 0x01, 0x07, 0x80, 0xFF].map (tableEntry 0x07 true) = [0x00, 0x91, 0x75, 0xE0, 0xCF] ∧
      [0x00, 0x01, 0x07, 0x80, 0xFF].map (tableEntry 0x07 false) = [0x00, 0x07, 0x15, 0x89, 0xF3] := by decide +kernel

/-- 2.1: table 2 of 2 is refused; 6: STATUS is 0x10 once table 1 is seeded. -/
theorem test_crcInittable_status :
    exec (.crcInittable 0x07 true 2) State.reset = .refused .badTableIndex ∧
      after State.status (exec (.crcInittable 0x07 true 1) State.reset) = some 0x10 := by
  constructor
  · rfl
  · decide +kernel

/-- 2.2. -/
theorem test_crcCalc :
    lastResult (exec (.crcCalc [0x05, 0x00, 0x06, 0, 0, 0, 0, 0] 3 1) seeded) = some (.crc 0x6F) ∧
      lastResult (exec (.crcCalc lines8 8 1) seeded) = some (.crc 0x0D) := by decide +kernel

/-- 2.2, the table that is not reflected. -/
theorem test_crcCalc_plain :
    checksum (mkTable 0x07 false) [0x05, 0x00, 0x06] = 0xD2 ∧ checksum (mkTable 0x07 false) lines8 = 0x3E := by
  decide +kernel

/-- 2.4. -/
theorem test_crcCheck :
    lastResult (exec (.crcCheck goodReply 8 1) seeded) = some (.check true) ∧
      lastResult (exec (.crcCheck [0x05, 0x00, 0x06, 0x6E, 0, 0, 0, 0] 4 1) seeded) = some (.check false) := by
  decide +kernel

/-- 2.4, last rows. -/
theorem test_crcCheck_stops :
    exec (.crcCheck lines8 0 1) seeded = .refused .badLength ∧
      exec (.crcCheck lines8 8 1) State.reset = .fault .crcTableUnseeded := by
  constructor <;> rfl

/-- A length of 9 at the port of 8 lines: refused on an unseeded table as any other, and on a seeded one it goes on (log 14). -/
theorem test_crcCalc_beyond :
    exec (.crcCalc lines8 9 1) State.reset = .fault .crcTableUnseeded ∧
      after State.freeUses (exec (.crcCalc lines8 9 1) seeded) = some 1 ∧
      after State.freeUses (exec (.crcCheck lines8 15 1) seeded) = some 1 := by
  refine ⟨rfl, rfl, rfl⟩

/-- 4.1, step 1, and 4.6. -/
theorem test_xchg :
    after State.wlen (exec (.xchg lines8 8 0 10) State.reset) = some (some 8) ∧
      exec (.xchg lines8 9 0 10) State.reset = .refused .badLength := by
  constructor <;> rfl

/-- 4.3, steps 8 and 10: the clock has wrapped; 10 is not more than 10, 11 is. -/
theorem test_xchg_timeout :
    lastResult (step { flying .xchg .poll with tp := some 4294967292, now := 6, rxbuf := [0x05, 0xFF, 0x06] }) = none ∧
      lastResult (step { flying .xchg .poll with tp := some 4294967292, now := 7, rxbuf := [0x05, 0xFF, 0x06] }) =
        some (.xchg .timedOut []) := by
  constructor <;> rfl

/-- 3.1: `FF 7F -1` and `00 90`, whose bit 7 is forced. -/
theorem test_encWrite :
    lastResult (exec (.encWrite 0xFF 0x7F (u32 (-1))) seeded) =
        some (.frame [0x05, 0xFF, 0xFF, 0xFF, 0xFF, 0xFF, 0xFF, 0x63]) ∧
      lastResult (exec (.encWrite 0x00 0x90 0x00071703) seeded) =
        some (.frame [0x05, 0x00, 0x90, 0x00, 0x07, 0x17, 0x03, 0x3B]) := by decide +kernel

/-- 3.2: `01 41` and `00 86`, whose bit 7 is forced to 0. -/
theorem test_encReadreq :
    lastResult (exec (.encReadreq 0x01 0x41) seeded) = some (.frame [0x05, 0x01, 0x41, 0x79]) ∧
      lastResult (exec (.encReadreq 0x00 0x86) seeded) = some (.frame [0x05, 0x00, 0x06, 0x6F]) := by decide +kernel

/-- 3.3: a good reply; bit 7 of byte 2 ignored. -/
theorem test_decReply :
    lastResult (exec (.decReply goodReplyV 8) seeded) = some (.decoded (.ok 0x06 0x20000140)) ∧
      lastResult (exec (.decReply #v[0x05, 0xFF, 0x86, 0xFF, 0xFF, 0xFE, 0x0C, 0x41] 8) seeded) =
        some (.decoded (.ok 0x06 (u32 (-500)))) := by decide +kernel

/-- 3.3: a shifted reply; 4 bytes. -/
theorem test_decReply_rejects :
    lastResult (exec (.decReply #v[0x00, 0x05, 0xFF, 0x06, 0x20, 0x00, 0x01, 0x40] 8) seeded) =
        some (.decoded .checksumMismatch) ∧
      exec (.decReply #v[0x05, 0x00, 0x06, 0x6F, 0, 0, 0, 0] 4) seeded = .refused .badLength := by
  constructor
  · decide +kernel
  · rfl

/-- P1, row 3: what is to be transmitted, with SLAVE_ADDR 1. -/
theorem test_wrreg :
    after (fun s => (s.wlen, s.rlen, s.curOp, s.fb))
        (exec (.wrreg 0x22 (u32 (-500))) { seeded with slaveAddr := 0x01 }) =
      some (some 8, some 0, .wrreg, [0x05, 0x01, 0xA2, 0xFF, 0xFF, 0xFE, 0x0C, 0xE9].map some) := by decide +kernel

/-- 5.10: what is to be transmitted, with SLAVE_ADDR 3. -/
theorem test_rdreg :
    after (fun s => (s.wlen, s.rlen, s.curOp, s.fb))
        (exec (.rdreg 0x6F) { seeded with slaveAddr := 0x03 }) =
      some (some 4, some 8, .rdreg, [some 0x05, some 0x03, some 0x6F, some 0x69, none, none, none, none]) := by decide +kernel

/-- 5.3 and 5.5: the poll of an RDREG that finds a reply. -/
theorem test_rdreg_reply :
    lastResult (step { flying .rdreg .poll with rxbuf := goodReply }) = some (.rdreg 0x20000140 .received) ∧
      lastResult (step { flying .rdreg .poll with rxbuf := [0x05, 0xFF, 0x06, 0x20, 0x00, 0x01, 0x41, 0xC8] }) =
        some (.rdreg 0 .checksumMismatch) := by decide +kernel

/-- 6: only bits 7:0 kept; register 1 is read-only. -/
theorem test_csrrw :
    after State.slaveAddr (exec (.csrrw 0 0x12345603) State.reset) = some 0x03 ∧
      exec (.csrrw 1 0) State.reset = .refused .badCsr := by
  constructor <;> rfl

/-- 6 and 2.1: CRC_CFG[1] of the seeded table. -/
theorem test_csrr : lastResult (exec (.csrr 13) seeded) = some (.csr 0x307) := by decide +kernel

/-- 6: unwritten and absent registers. -/
theorem test_csrr_stops :
    exec (.csrr 2) State.reset = .fault .readOfUnwritten ∧ exec (.csrr 99) State.reset = .refused .badCsr := by
  constructor <;> rfl

/-- R85. -/
theorem test_reserved : exec (.reserved 0xB) State.reset = .refused .badOp := by rfl

/-- 4.2, step 1: the frame of `05 00 06 6F`. -/
theorem test_frameReadreq :
    after (fun s => (s.fb.take 4, s.rlen)) (exec (.frameReadreq 0x00 0x06 0x6F) State.reset) =
      some ([0x05, 0x00, 0x06, 0x6F].map some, some 8) := by decide

/-- 4.1, step 1: the frame of `05 00 90 00 07 17 03 3B`. -/
theorem test_frameWrite :
    after (fun s => (s.fb, s.rlen)) (exec (.frameWrite 0x00 0x10 0x00071703 0x3B) State.reset) =
      some ([0x05, 0x00, 0x90, 0x00, 0x07, 0x17, 0x03, 0x3B].map some, some 0) := by decide

/-- 4.2, steps 6 and 9: the reply's bytes enter RXBUF in their order. -/
theorem test_frameReply :
    after State.rxbuf (exec (.frameReply 0x05 0xFF false 0x06 0x20000140 0xC8) State.reset) = some goodReply := by
  simp only [exec, execFrameReply]
  rw [appendBytes_of_room (by simp [replyBody, payloadBytes, State.reset, Config.default])]
  rfl


/-! ## Witnesses: for each obligation with hypotheses, a state and operands that meet them, and values at the bounds of its
clauses -/

/-- RX_CAP is 8 or more whatever the open value is, so that an empty buffer has room. -/
theorem witness_room : State.reset.rxbuf.length + 8 ≤ State.reset.cfg.rxCap := by
  simp [State.reset, Config.default]

/-- A block with the least receive buffer R5 allows, which holds `n` bytes as the byte 0x05 arrives. -/
def leastBuffer (n : Nat) : State :=
  { State.reset with
    cfg := { Config.default with rxCap := 8 }
    schedule := [.byte 0x05]
    rxbuf := List.replicate n 0xEE }

theorem witness_ReplyFitsTheBuffer :
    (leastBuffer 0).cfg.wf ∧ Config.replyLen.toNat ≤ (leastBuffer 0).cfg.rxCap ∧ (leastBuffer 0).rxbuf = [] ∧
      goodReply.length = Config.replyLen.toNat ∧ Config.replyLen.toNat ≤ 8 := by decide

theorem witness_DecodeUndoesEncode :
    (Instr.xchg lines8 15 8 0xFFFFFFFF).wf Config.default = true ∧
      (encode Config.default (.xchg lines8 15 8 0xFFFFFFFF)).channel = .command := by decide

theorem witness_EncodeUndoesDecode :
    decode Config.default ⟨.command, [0x08, 0xFF, 0x99]⟩ = .ok (.rdreg 0xFF) ∧
      decode Config.default ⟨.toDevice, [0x05, 0x00, 0x06, 0x6F]⟩ = .ok (.frameReadreq 0x00 0x06 0x6F) := by
  constructor <;> rfl

theorem witness_ReservedCodesAreRefused :
    (0xB ≤ (0xB : Nibble).toNat ∧ 0xB ≤ (0xF : Nibble).toNat) ∧ seeded.xstate = .idle := by decide

theorem witness_StepRunsTheOffer :
    let s : State := { seeded with offers := [.command [0x0A, 0x01]], schedule := [.sequencer, .clock 0] }
    s.sequencerNext [.clock 0] ∧ s.xstate = .idle ∧ s.offers = .command [0x0A, 0x01] :: [] ∧
      decode s.cfg (HostOffer.command [0x0A, 0x01]).transfer = .ok (.csrr 0x01) :=
  ⟨.inl rfl, rfl, rfl, rfl⟩

/-- The sequencer has the turn where nothing is scheduled, too. -/
theorem witness_sequencerNext : seeded.sequencerNext [] := .inr ⟨rfl, rfl⟩

theorem witness_StepRunsTheArrivingFrame :
    let s : State := { flying .rdreg .poll with schedule := [.arrive goodReply] }
    s.schedule = .arrive goodReply :: [] ∧
      decode s.cfg ⟨.toBlock, goodReply⟩ = .ok (.frameReply 0x05 0xFF false 0x06 0x20000140 0xC8) := ⟨rfl, rfl⟩

theorem witness_FetchWordIsRunNext :
    decode seeded.cfg (tableTransfer seeded.cfg 8 0x0A) = .ok (.csrr 0) ∧
      decode seeded.cfg (tableTransfer seeded.cfg 64 0x05FF0620000140C8) =
        .ok (.frameReply 0x05 0xFF false 0x06 0x20000140 0xC8) := ⟨rfl, rfl⟩

theorem witness_OffersWaitWhileBusy_busy :
    let s : State := { flying .xchg .clear with offers := [.command [0x08, 0x06]] }
    s.busy = true ∧ ∃ s', step s = .next s' := ⟨rfl, _, rfl⟩

theorem witness_OffersWaitWhileBusy_idle :
    let s : State := { seeded with offers := [.command [0x08, 0x06]] }
    s.busy = false ∧ s.sequencerNext [] ∧ s.offers = .command [0x08, 0x06] :: [] ∧
      decode s.cfg (HostOffer.command [0x08, 0x06]).transfer = .ok (.rdreg 0x06) ∧ ∃ s', step s = .next s' :=
  ⟨rfl, .inr ⟨rfl, rfl⟩, rfl, rfl, _, rfl⟩

theorem witness_BusyIsReportedFirst :
    (flying .xchg .poll).xstate ≠ .idle ∧ (flying .xchg .clear).xstate ≠ .idle ∧
      ∀ b0 b1 f a v c, Instr.csrr 0 ≠ .frameReply b0 b1 f a v c :=
  ⟨by decide, by decide, fun _ _ _ _ _ _ h => nomatch h⟩

theorem witness_IdleBlockDoesNothing :
    let s : State := { seeded with schedule := [.sequencer] }
    s.sequencerNext [] ∧ s.xstate = .idle ∧ s.offers = [] := ⟨.inl rfl, rfl, rfl⟩

theorem witness_ClockAdvances :
    let s : State := { seeded with now := 4294967295, schedule := [.clock 0] }
    1 ≤ 1 ∧ s.schedule = .clock (1 - 1) :: [] := ⟨Nat.le_refl 1, rfl⟩

theorem witness_ByteArrives_room :
    (leastBuffer 7).schedule = .byte 0x05 :: [] ∧ (leastBuffer 7).rxbuf.length < (leastBuffer 7).cfg.rxCap := by decide

theorem witness_ByteArrives_full :
    (leastBuffer 8).schedule = .byte 0x05 :: [] ∧ (leastBuffer 8).cfg.rxCap ≤ (leastBuffer 8).rxbuf.length := by decide

theorem witness_ResetAbandonsTheExchange :
    let s : State := { flying .rdreg .poll with schedule := [.reset, .sequencer] }
    s.schedule = .reset :: [.sequencer] ∧ s.xstate = .poll := ⟨rfl, rfl⟩

/-- The invariant holds of a concrete RDREG in POLL, so that the statements about it are about something. -/
theorem witness_inv : (flying .rdreg .poll).Inv where
  cfg := by decide
  size := by decide
  now := by decide
  times := by
    rintro t (h | h | h) <;> cases h <;> decide
  tables := Memory.wf_set (Memory.wf_reset 2) 0x07 true
  rxbuf := Nat.zero_le _
  owner := by decide
  flight := fun _ => ⟨4, 8, 10, rfl, rfl, rfl, by decide, by decide, by decide, by decide, by decide, by decide,
    fun _ => ⟨rfl, rfl, rfl, rfl, rfl⟩⟩
  reply := fun n h => nomatch (show (none : Option Nibble) = some n from h)
  noReply := fun _ => rfl
  mismatch := fun h => nomatch (show ResultCode.none = .checksumMismatch from h)

theorem witness_StepKeepsTheInvariant : (flying .rdreg .poll).Inv ∧ ∃ s', step (flying .rdreg .poll) = .next s' :=
  ⟨witness_inv, _, rfl⟩

theorem witness_ExchangeNeverGetsStuck :
    (flying .rdreg .poll).Inv ∧ (flying .rdreg .poll).xstate ≠ .idle ∧ (flying .rdreg .poll).sequencerNext [] :=
  ⟨witness_inv, by decide, .inr ⟨rfl, rfl⟩⟩

/-- In POLL a turn is due 11 ms after TP and not at 10 ms; in SETTLE it is not due 1 ms after TS. -/
theorem witness_turnDue :
    ({ flying .rdreg .poll with now := 5013 } : State).turnDue = true ∧
      ({ flying .rdreg .poll with now := 5012 } : State).turnDue = false ∧
      ({ flying .rdreg .settle with now := 5001 } : State).turnDue = false := by decide

/-- An exchange with the invariant, at CLEAR, and a schedule under which four turns are due. -/
def fourDue : State :=
  { flying .rdreg .clear with
    schedule := [.sequencer, .byte 0xEE, .sequencer, .sequencer, .clock 1, .sequencer, .clock 9, .sequencer, .clock 0,
      .sequencer] }

theorem witness_ExchangeEndsIfTheClockRuns :
    fourDue.Inv ∧ fourDue.xstate ≠ .idle ∧ 4 ≤ fourDue.dueTurns 10 := by
  refine ⟨⟨witness_inv.cfg, witness_inv.size, witness_inv.now, witness_inv.times, witness_inv.tables, witness_inv.rxbuf,
    by decide, fun _ => ⟨4, 8, 10, rfl, rfl, rfl, by decide, by decide, by decide, by decide, by decide, by decide,
      fun _ => ⟨rfl, rfl, rfl, rfl, rfl⟩⟩, witness_inv.reply, witness_inv.noReply, witness_inv.mismatch⟩, by decide, ?_⟩
  decide +kernel

/-- The greatest timeout with nothing to read; and another timeout with a reply to read. -/
theorem witness_ExchangeCanEnd :
    (flying .rdreg .poll).Inv ∧ (flying .rdreg .poll).xstate ≠ .idle ∧
      (flying .rdreg .poll).tmo ≠ some (2 ^ (flying .rdreg .poll).cfg.clockBits - 1) ∧
      ({ settled .xchg with tmo := some 4294967295 } : State).rlen = some 0 := ⟨witness_inv, by decide, by decide, rfl⟩

theorem witness_ConfigurationIsFixed :
    ∃ s', step { flying .xchg .poll with schedule := [.reset] } = .next s' := ⟨_, rfl⟩

theorem tables_ne : (seeded.writeTable 0 (mkTable 0x07 true)).tables ≠ seeded.tables := fun h =>
  nomatch (show some (some (mkTable 0x07 true)) = some none from congrArg (fun m : Memory => m[0]?) h)

/-- A step that seeds, a step that resets, an instruction that seeds, and a step that leaves a seeded table. -/
theorem witness_TablesAreWrittenOnlyBySeeding :
    (∃ s', step { seeded with offers := [.command [0x00, 0x07, 0x01, 0x00]] } = .next s' ∧ s'.tables ≠ seeded.tables) ∧
      (∃ s', step { seeded with schedule := [.reset] } = .next s' ∧ s'.tables ≠ seeded.tables) ∧
      (∃ s', exec (.crcInittable 0x07 true 0) seeded = .next s' ∧ s'.tables ≠ seeded.tables) ∧
      ∃ s', step seeded = .next s' ∧ (∀ rest, seeded.schedule ≠ .reset :: rest) ∧ seeded.seeded 1 = true := by
  refine ⟨⟨_, rfl, tables_ne⟩, ⟨_, rfl, fun h => ?_⟩, ⟨_, rfl, tables_ne⟩, _, rfl, (fun _ h => nomatch h), rfl⟩
  exact nomatch (show some none = some (some (mkTable 0x07 true)) from congrArg (fun m : Memory => m[1]?) h)

/-- A step that takes CSRRW 0, a step that resets, and the instruction. -/
theorem witness_SlaveAddrIsWrittenOnlyByCsrrw :
    (∃ s', step { seeded with offers := [.command [0x09, 0x00, 0x00, 0x00, 0x01, 0x03]] } = .next s' ∧
        s'.slaveAddr ≠ seeded.slaveAddr) ∧
      (∃ s', step { seeded with slaveAddr := 0x03, schedule := [.reset] } = .next s' ∧ s'.slaveAddr ≠ 0x03) ∧
      ∃ s', exec (.csrrw 0 0x103) seeded = .next s' ∧ s'.slaveAddr ≠ seeded.slaveAddr :=
  ⟨⟨_, rfl, by decide⟩, ⟨_, rfl, by decide⟩, _, rfl, by decide⟩

theorem witness_OneResultAndOneTransmitAtMost :
    (∃ s', step (flying .xchg .write) = .next s') ∧ ∃ s', step (settled .wrreg) = .next s' := ⟨⟨_, rfl⟩, _, rfl⟩

theorem witness_BlockChangesTheBufferOnlyInClearAndPoll :
    (flying .xchg .clear).sequencerNext [] ∧ (∃ s', step (flying .xchg .clear) = .next s') ∧
      ∃ s', step { flying .xchg .poll with rxbuf := goodReply ++ [0x99] } = .next s' ∧ s'.rxbuf = [0x99] :=
  ⟨.inr ⟨rfl, rfl⟩, ⟨_, rfl⟩, _, rfl, rfl⟩

/-- Table index 2 of 2 is the first that is too large, 1 the last that is not. -/
theorem witness_InittableBuildsTheTable :
    State.reset.xstate = .idle ∧ State.reset.tables.length ≤ (2 : Byte).toNat ∧
      (1 : Byte).toNat < State.reset.tables.length := by decide

/-- The three clauses about a table exclude each other; `n` is 8. -/
theorem witness_CalcDeliversTheChecksum :
    seeded.xstate = .idle ∧ (8 : Nibble).toNat ≤ seeded.cfg.maxXfer ∧ seeded.tables[(2 : Byte).toNat]? = none ∧
      seeded.tables[(0 : Byte).toNat]? = some none ∧
      seeded.tables[(1 : Byte).toNat]? = some (some (mkTable 0x07 true)) := ⟨rfl, by decide, rfl, rfl, rfl⟩

theorem witness_CalcAgreesWithTheSerialEngine :
    seeded.xstate = .idle ∧ (8 : Nibble).toNat ≤ seeded.cfg.maxXfer ∧ Memory.wf 2 seeded.tables = true ∧
      seeded.tables[(1 : Byte).toNat]? = some (some (mkTable 0x07 true)) := ⟨rfl, by decide, witness_inv.tables, rfl⟩

/-- `n` is 0; 1, the least that is compared; 8, the greatest. -/
theorem witness_CheckComparesTheLastByte :
    seeded.xstate = .idle ∧ lines8.length = seeded.cfg.maxXfer ∧
      ((1 : Nibble) ≠ 0 ∧ (1 : Nibble).toNat ≤ seeded.cfg.maxXfer) ∧
      ((8 : Nibble) ≠ 0 ∧ (8 : Nibble).toNat ≤ seeded.cfg.maxXfer) ∧ lines8[(1 : Nibble).toNat - 1]? = some 0x01 ∧
      lines8[(8 : Nibble).toNat - 1]? = some 0x08 ∧ seeded.tables[(2 : Byte).toNat]? = none ∧
      seeded.tables[(0 : Byte).toNat]? = some none ∧
      seeded.tables[(1 : Byte).toNat]? = some (some (mkTable 0x07 true)) :=
  ⟨rfl, rfl, by decide, by decide, rfl, rfl, rfl, rfl, rfl⟩

/-- 9, the least length above MAX_XFER, and 15, the greatest. -/
theorem witness_ChecksumLengthBeyondThePortDeliversAFreeValue :
    seeded.xstate = .idle ∧ seeded.tables[(1 : Byte).toNat]? = some (some (mkTable 0x07 true)) ∧
      seeded.cfg.maxXfer < (9 : Nibble).toNat ∧ seeded.cfg.maxXfer < (15 : Nibble).toNat :=
  ⟨rfl, rfl, by decide, by decide⟩

theorem witness_UnseededTableFaults :
    (State.reset.xstate = .idle ∧ State.reset.tables[State.reset.cfg.crcIndex]? = some none) ∧
      (State.reset.tables[(0 : Byte).toNat]? = some none ∧ (15 : Nibble) ≠ 0) ∧
      (seeded.xstate = .idle ∧ seeded.seeded (1 : Byte).toNat = true ∧ (8 : Nibble).toNat ≤ seeded.cfg.maxXfer) :=
  ⟨⟨rfl, rfl⟩, ⟨rfl, by decide⟩, rfl, rfl, by decide⟩

theorem witness_ChecksumIsLinear :
    goodReply.length = lines8.length ∧ checksumMatches (mkTable 0x07 true) goodReply = true := by decide +kernel

/-- A frame of each length; the last byte and the last bit of it are altered. -/
theorem witness_SmallAlterationsAreDetected :
    ([0x05, 0x00, 0x06, 0x6F].length = 4 ∧
      checksumMatches (mkTable Config.default.crcPoly Config.default.crcReflected) [0x05, 0x00, 0x06, 0x6F] = true) ∧
    (goodReply.length = 8 ∧
      checksumMatches (mkTable Config.default.crcPoly Config.default.crcReflected) goodReply = true ∧
      7 < goodReply.length ∧ (0xC9 : Byte) ≠ 0xC8 ∧ 62 < 63 ∧ 63 < 8 * goodReply.length) := by decide +kernel

theorem witness_SignedValuesLoseNothing :
    (-(2 : Int) ^ 31 ≤ -2147483648 ∧ (-2147483648 : Int) < 2 ^ 31) ∧
      (-(2 : Int) ^ 31 ≤ 2147483647 ∧ (2147483647 : Int) < 2 ^ 31) := by decide

/-- For ENC.WRITE, ENC.READREQ, WRREG and RDREG: a state for the refusal and one for the effect. -/
theorem witness_codec :
    (State.reset.xstate = .idle ∧ State.reset.tables[State.reset.cfg.crcIndex]? = some none) ∧
      (seeded.xstate = .idle ∧ seeded.tables[seeded.cfg.crcIndex]? = some (some (mkTable 0x07 true))) :=
  ⟨⟨rfl, rfl⟩, rfl, rfl⟩

/-- A reply whose checksum matches and one whose checksum does not; `n` is 7 and 9. -/
theorem witness_DecReplyDecodes :
    (7 : Nibble).toNat ≠ 8 ∧ (9 : Nibble).toNat ≠ 8 ∧
      goodReplyV = #v[0x05, 0xFF, 0x06, 0x20, 0x00, 0x01, 0x40, 0xC8] ∧
      checksum (mkTable 0x07 true) [0x05, 0xFF, 0x06, 0x20, 0x00, 0x01, 0x40] = 0xC8 ∧
      checksum (mkTable 0x07 true) [0x05, 0xFF, 0x06, 0x20, 0x00, 0x01, 0x41] ≠ 0xC8 := by decide +kernel

theorem witness_DecReplyUndoesEncWrite :
    seeded.xstate = .idle ∧ seeded.seeded seeded.cfg.crcIndex = true ∧ -(2 : Int) ^ 31 ≤ -500 ∧ (-500 : Int) < 2 ^ 31 :=
  ⟨rfl, rfl, by decide, by decide⟩

theorem witness_AlteredFrameIsRejected :
    seeded.xstate = .idle ∧ seeded.tables[seeded.cfg.crcIndex]? = some (some (mkTable 0x07 true)) ∧
      encodeWrite (mkTable 0x07 true) seeded.cfg.sync 0x00 0x10 0x00071703 =
        [0x05, 0x00, 0x90, 0x00, 0x07, 0x17, 0x03] ++ [0x3B] ∧
      (#v[0x05, 0x00, 0x90, 0x00, 0x07, 0x17, 0x02, 0x3B] : Vector Byte 8).toList =
        [0x05, 0x00, 0x90, 0x00, 0x07, 0x17, 0x02] ++ [0x3B] ∧
      checksum (mkTable 0x07 true) [0x05, 0x00, 0x90, 0x00, 0x07, 0x17, 0x02] ≠
        checksum (mkTable 0x07 true) [0x05, 0x00, 0x90, 0x00, 0x07, 0x17, 0x03] :=
  ⟨rfl, rfl, by decide +kernel, rfl, by decide +kernel⟩

/-- Lengths 8 and 9, and 0. -/
theorem witness_XchgIsAccepted :
    State.reset.xstate = .idle ∧ lines8.length = State.reset.cfg.maxXfer ∧
      (State.reset.cfg.maxXfer < (9 : Nibble).toNat ∨ State.reset.cfg.maxXfer < (0 : Nibble).toNat) ∧
      ((8 : Nibble).toNat ≤ State.reset.cfg.maxXfer ∧ (0 : Nibble).toNat ≤ State.reset.cfg.maxXfer) := by decide

theorem witness_ClearEmptiesTheBuffer :
    (flying .xchg .clear).sequencerNext [] ∧ (flying .xchg .clear).xstate = .clear := ⟨.inr ⟨rfl, rfl⟩, rfl⟩

theorem witness_WriteTransmitsTheFrame :
    (flying .xchg .write).sequencerNext [] ∧ (flying .xchg .write).xstate = .write ∧
      (flying .xchg .write).wlen = some 4 ∧
      ([0x05, 0x00, 0x06, 0x6F] : List Byte).length = (4 : Nibble).toNat ∧
      ∀ i (h : i < ([0x05, 0x00, 0x06, 0x6F] : List Byte).length),
        (flying .xchg .write).fb[i]? = some (some ([0x05, 0x00, 0x06, 0x6F] : List Byte)[i]) :=
  ⟨.inr ⟨rfl, rfl⟩, rfl, rfl, by decide, by decide⟩

/-- One millisecond after TS the delay of 2 is not over; at 2 it is. -/
theorem witness_SettleHolds :
    let s : State := { settled .wrreg with now := 1001 }
    s.sequencerNext [] ∧ s.xstate = .settle ∧ s.ts = some 1000 ∧ s.elapsedSince 1000 < s.cfg.settleMs :=
  ⟨.inr ⟨rfl, rfl⟩, rfl, rfl, by decide⟩

theorem witness_SettleExits (op : CurOp) :
    (settled op).sequencerNext [] ∧ (settled op).xstate = .settle ∧ (settled op).ts = some 1000 ∧
      (settled op).rlen = some 0 ∧ (settled op).curOp = op ∧
      (settled op).cfg.settleMs ≤ (settled op).elapsedSince 1000 :=
  ⟨.inr ⟨rfl, rfl⟩, rfl, rfl, rfl, rfl, by cases op <;> decide⟩

theorem witness_SettleExits_toPoll :
    let s : State := { flying .xchg .settle with now := 5002 }
    s.sequencerNext [] ∧ s.xstate = .settle ∧ s.ts = some 5000 ∧ s.rlen = some 8 ∧ (8 : Nibble) ≠ 0 ∧
      s.cfg.settleMs ≤ s.elapsedSince 5000 := ⟨.inr ⟨rfl, rfl⟩, rfl, rfl, rfl, by decide, by decide⟩

/-- Exactly RLEN bytes are there. -/
theorem witness_PollTakesACompleteReply :
    let s : State := { flying .xchg .poll with rxbuf := goodReply }
    s.sequencerNext [] ∧ s.xstate = .poll ∧ s.curOp = .xchg ∧ s.rlen = some 8 ∧
      (8 : Nibble).toNat ≤ s.rxbuf.length := ⟨.inr ⟨rfl, rfl⟩, rfl, rfl, rfl, by decide⟩

/-- One byte is missing, and 11 ms are more than 10. -/
theorem witness_PollTimesOut (op : CurOp) :
    let s : State := { flying op .poll with rxbuf := goodReply.take 7, now := 5013 }
    s.sequencerNext [] ∧ s.xstate = .poll ∧ s.rlen = some 8 ∧ s.tp = some 5002 ∧ s.tmo = some 10 ∧
      s.rxbuf.length < (8 : Nibble).toNat ∧ 10 < s.elapsedSince 5002 ∧ s.curOp = op :=
  ⟨.inr ⟨rfl, rfl⟩, rfl, rfl, rfl, rfl, by cases op <;> decide, by cases op <;> decide, rfl⟩

/-- 10 ms are not more than 10; and the greatest timeout. -/
theorem witness_PollKeepsWaiting :
    let s : State := { flying .xchg .poll with rxbuf := goodReply.take 7, now := 5012 }
    s.sequencerNext [] ∧ s.xstate = .poll ∧ s.rlen = some 8 ∧ s.tp = some 5002 ∧ s.tmo = some 10 ∧
      s.rxbuf.length < (8 : Nibble).toNat ∧ s.elapsedSince 5002 ≤ 10 ∧
      ({ s with tmo := some 4294967295 } : State).tmo = some (2 ^ s.cfg.clockBits - 1) :=
  ⟨.inr ⟨rfl, rfl⟩, rfl, rfl, rfl, rfl, by decide, by decide, rfl⟩

theorem witness_WrregSendsAWriteFrame :
    (settled .wrreg).sequencerNext [] ∧ (settled .wrreg).xstate = .settle ∧ (settled .wrreg).curOp = .wrreg ∧
      (settled .wrreg).rlen = some 0 ∧ (settled .wrreg).ts = some 1000 ∧
      (settled .wrreg).cfg.settleMs ≤ (settled .wrreg).elapsedSince 1000 :=
  ⟨.inr ⟨rfl, rfl⟩, rfl, rfl, rfl, rfl, by decide⟩

theorem witness_RdregReadsOrGivesTheSentinel_reply :
    let s : State := { flying .rdreg .poll with rxbuf := goodReply ++ [0xEE] }
    s.sequencerNext [] ∧ s.xstate = .poll ∧ s.curOp = .rdreg ∧ s.rlen = some 8 ∧
      s.tables[s.cfg.crcIndex]? = some (some (mkTable 0x07 true)) ∧
      s.rxbuf = [0x05, 0xFF, 0x06, 0x20, 0x00, 0x01, 0x40, 0xC8] ++ [0xEE] :=
  ⟨.inr ⟨rfl, rfl⟩, rfl, rfl, rfl, rfl, rfl⟩

theorem witness_RdregReadsOrGivesTheSentinel_timeout :
    let s : State := { flying .rdreg .poll with rxbuf := goodReply.take 7, now := 5013 }
    s.tables[s.cfg.crcIndex]? = some (some (mkTable 0x07 true)) ∧ s.rxbuf.length < 8 ∧ s.tp = some 5002 ∧
      s.tmo = some 10 ∧ 10 < s.elapsedSince 5002 := ⟨rfl, by decide, rfl, rfl, by decide⟩

theorem witness_WrregRunsToItsEnd :
    let s : State := { seeded with
      offers := [.command [0x07, 0x10, (0x00071703 : Word).extractLsb' 24 8, (0x00071703 : Word).extractLsb' 16 8,
        (0x00071703 : Word).extractLsb' 8 8, (0x00071703 : Word).extractLsb' 0 8]]
      schedule := [.sequencer, .sequencer, .sequencer, .clock 1, .sequencer], rxbuf := [0xAA, 0xBB] }
    s.xstate = .idle ∧ s.tables[s.cfg.crcIndex]? = some (some (mkTable 0x07 true)) ∧
      s.offers = .command [0x07, 0x10, (0x00071703 : Word).extractLsb' 24 8, (0x00071703 : Word).extractLsb' 16 8,
        (0x00071703 : Word).extractLsb' 8 8, (0x00071703 : Word).extractLsb' 0 8] :: [] ∧
      s.schedule = .sequencer :: .sequencer :: .sequencer :: .clock 1 :: .sequencer :: [] ∧
      s.cfg.settleMs ≤ 1 + 1 ∧ 1 + 1 < 2 ^ s.cfg.clockBits := ⟨rfl, rfl, rfl, rfl, by decide, by decide⟩

theorem witness_RdregRunsToItsEnd :
    let s : State := { seeded with
      offers := [.command [0x08, 0x06]]
      schedule := [.sequencer, .sequencer, .sequencer, .clock 1, .sequencer, .arrive goodReply, .sequencer] }
    s.xstate = .idle ∧ s.tables[s.cfg.crcIndex]? = some (some (mkTable 0x07 true)) ∧
      s.offers = .command [0x08, 0x06] :: [] ∧
      s.schedule = .sequencer :: .sequencer :: .sequencer :: .clock 1 :: .sequencer ::
        .arrive [0x05, 0xFF, 0x06, 0x20, 0x00, 0x01, 0x40, 0xC8] :: .sequencer :: [] ∧
      Config.replyLen.toNat ≤ s.cfg.rxCap ∧
      s.cfg.settleMs ≤ 1 + 1 ∧ 1 + 1 < 2 ^ s.cfg.clockBits := ⟨rfl, rfl, rfl, rfl, witness_room, by decide, by decide⟩

theorem witness_CsrrwWritesTheSlaveAddress : State.reset.xstate = .idle ∧ (0 : Byte) = 0 ∧ (1 : Byte) ≠ 0 := by decide

/-- Register 14 is the first that is absent, 13 the last that is there. -/
theorem witness_AbsentCsrIsRefused :
    State.reset.xstate = .idle ∧ (1 : Byte).toNat ≠ 0 ∧ 12 + State.reset.tables.length ≤ (14 : Byte).toNat := by decide

/-- Each register written and unwritten, 4 and 11 the first and the last of RB, 12 and 13 the tables. -/
theorem witness_CsrrReadsTheRegister :
    let s : State := { seeded with
      rdata := some 0x20000140, rbLen := some 8, rb := [some 0x05, none, none, none, none, none, none, some 0xC8] }
    s.xstate = .idle ∧ State.reset.rdata = none ∧ s.rdata = some 0x20000140 ∧ State.reset.rbLen = none ∧
      s.rbLen = some 8 ∧ ((4 : Byte).toNat = 4 + 0 ∧ s.rb[0]? = some (some 0x05)) ∧ s.rb[1]? = some none ∧
      ((11 : Byte).toNat = 4 + 7 ∧ s.rb[7]? = some (some 0xC8)) ∧ ((12 : Byte).toNat = 12 + 0 ∧ s.tables[0]? = some none) ∧
      ((13 : Byte).toNat = 12 + 1 ∧ s.tables[1]? = some (some (mkTable 0x07 true))) :=
  ⟨rfl, rfl, rfl, rfl, rfl, ⟨rfl, rfl⟩, rfl, ⟨rfl, rfl⟩, ⟨rfl, rfl⟩, rfl, rfl⟩

theorem witness_SeedingOpensTheCodec :
    State.reset.xstate = .idle ∧ (1 : Byte).toNat = State.reset.cfg.crcIndex ∧
      (1 : Byte).toNat < State.reset.tables.length ∧ (1 : Nibble) ≠ 0 := by decide

theorem witness_SentFramesAreExchanges : State.reset.xstate = .idle := rfl

theorem witness_ReplyFrameArrives : goodReply.length = 8 ∧ State.reset.rxbuf.length + 8 ≤ State.reset.cfg.rxCap :=
  ⟨rfl, witness_room⟩

end Sys2Proof.Tests
end

section
/-! Proofs for 00_scope.md: the implementation parameters stay as they are (R5), and a receive buffer of the least capacity R5
allows holds a reply. -/

namespace Sys2Proof.Machine

/-! ## No move changes the configuration -/

/-- An accept step writes latches, CUR_OP and XSTATE only (42_transport.md R121). -/
theorem Accepted.cfg_eq {s s' : State} {i : Instr} (h : Accepted s i s') : s'.cfg = s.cfg := by
  cases h <;> rfl

theorem Effect.cfg_eq {s s' : State} {i : Instr} (h : Effect s i s') : s'.cfg = s.cfg := by
  cases h with
  | seed | deliver | deliverFree | slaveAddr => rfl
  | accept _ _ h => exact h.cfg_eq
  | arrive => exact (appendBytes_fields s _).1

theorem exec_cfg_eq {i : Instr} {s s' : State} (h : exec i s = .next s') : s'.cfg = s.cfg :=
  (exec_effect h).1.cfg_eq

/-- No transition of XSTATE writes a parameter (42_transport.md R122 to R128). -/
theorem Turn.cfg_eq {s s' : State} (h : Turn s s') : s'.cfg = s.cfg := by
  cases h <;> rfl

theorem Move.cfg_eq {s s' : State} (h : Move s s') : s'.cfg = s.cfg := by
  cases h with
  | idle | clock | reset => rfl
  | offer _ _ _ _ _ _ _ _ _ he => exact (exec_cfg_eq he :)
  | busy _ _ _ _ ht => exact ht.cfg_eq
  | byte b rest => exact (appendByte_fields { s with schedule := rest } b).1
  | arrive _ _ _ _ _ _ he => exact (exec_cfg_eq he :)

/-! ## The capacity of the receive buffer -/

/-- Bytes that an empty buffer has room for are what it then holds (20_memory.md R43). -/
theorem appendBytes_of_empty {s : State} {bytes : List Byte} (he : s.rxbuf = []) (hl : bytes.length ≤ s.cfg.rxCap) :
    s.appendBytes bytes = { s with rxbuf := bytes } := by
  rw [appendBytes_of_room (by simpa [he] using hl), he, List.nil_append]

/-- RX_CAP of the configuration after reset is REPLY_LEN and an open excess (92_eei_decisions.md D32). -/
theorem replyLen_le_default_rxCap : Config.replyLen.toNat ≤ Config.default.rxCap :=
  Nat.le_add_left 8 Config.rxCapExtra

/-- The parameters after reset fit together, the open capacity included (00_scope.md R5). -/
theorem default_wf : Config.default.wf :=
  ⟨by decide, by decide, by decide, by decide, replyLen_le_default_rxCap⟩

/-- Parameters that fit together still do with any other capacity of at least REPLY_LEN. -/
theorem withRxCap_wf {c : Config} {cap : Nat} (hc : c.wf) (h : Config.replyLen.toNat ≤ cap) :
    ({ c with rxCap := cap } : Config).wf := by
  obtain ⟨hindex, hxfer, hsettle, htimeout, -⟩ := hc
  exact ⟨hindex, hxfer, hsettle, htimeout, h⟩

end Sys2Proof.Machine

namespace Sys2Proof.Proofs

open Sys2Proof.Machine

/-- Settles O20: a step that answers a next state is one of the agents' moves, and no move writes a parameter. -/
theorem configurationIsFixed : Obligations.ConfigurationIsFixed :=
  fun _ _ h => (step_move h).cfg_eq

/-- Settles O13: a reply is REPLY_LEN bytes, which an empty buffer of that capacity has room for; the configuration asked for is
the default one with the capacity put in. -/
theorem replyFitsTheBuffer : Obligations.ReplyFitsTheBuffer := by
  refine ⟨replyLen_le_default_rxCap, fun s reply hcap hempty hlen => ?_, fun cap hcap => ?_⟩
  · exact appendBytes_of_empty hempty (hlen.trans_le hcap)
  · exact ⟨{ Config.default with rxCap := cap }, withRxCap_wf default_wf hcap, rfl⟩

end Sys2Proof.Proofs
end

section
/-! Proofs for 10_state.md: every step keeps the invariant (R12 to R15, R22, R31), which moves write the tables, SLAVE_ADDR and the
offers (R16, R17, R20, R23), which instruction a step runs, reset (R36, R37) and STATUS (R19). -/

namespace Sys2Proof

open Sys2Proof.Machine

/-! ## What decodes is well formed -/

theorem bind_eq_ok {ε α β : Type} {x : Except ε α} {f : α → Except ε β} {b : β} :
    x.bind f = .ok b ↔ ∃ a, x = .ok a ∧ f a = .ok b := by
  cases x <;> simp [Except.bind]

theorem map_eq_ok {ε α β : Type} {x : Except ε α} {f : α → β} {b : β} :
    x.map f = .ok b ↔ ∃ a, x = .ok a ∧ f a = b := by
  cases x <;> simp [Except.map]

/-- CRC.CALC and CRC.CHECK take MAX_XFER byte lines (30_encoding.md R83). -/
theorem decodeBytesNIndex_ok {cfg : Config} {mk : List Byte → Nibble → Byte → Instr} {ops : List Byte} {i : Instr}
    (h : decodeBytesNIndex cfg mk ops = .ok i) : ∃ data n k, data.length = cfg.maxXfer ∧ i = mk data n k := by
  obtain ⟨p, hp, h⟩ := bind_eq_ok.1 h
  unfold decodeNIndex at h
  split at h
  · obtain ⟨n, -, rfl⟩ := map_eq_ok.1 h
    exact ⟨p.1, n, _, (takeLines_ok hp).1, rfl⟩
  · cases h

/-- XCHG takes MAX_XFER byte lines and a timeout of CLOCK_BITS (42_transport.md R120). -/
theorem decodeXchg_ok {cfg : Config} {ops : List Byte} {i : Instr} (h : decodeXchg cfg ops = .ok i) :
    ∃ data wl rl tm, data.length = cfg.maxXfer ∧ tm < cfg.clockRange ∧ i = .xchg data wl rl tm := by
  obtain ⟨p, hp, h⟩ := bind_eq_ok.1 h
  unfold decodeLengthsTime at h
  split at h
  · obtain ⟨wl, -, h⟩ := bind_eq_ok.1 h
    obtain ⟨rl, -, h⟩ := bind_eq_ok.1 h
    obtain ⟨tm, ht, rfl⟩ := map_eq_ok.1 h
    exact ⟨p.1, wl, rl, tm, (takeLines_ok hp).1, (decodeTime_ok ht).1, rfl⟩
  · cases h

theorem decodeCrcInittable_ok {ops : List Byte} {i : Instr} (h : decodeCrcInittable ops = .ok i) :
    ∃ poly reflected k, i = .crcInittable poly reflected k := by
  unfold decodeCrcInittable at h
  split at h
  · obtain ⟨r, -, rfl⟩ := map_eq_ok.1 h
    exact ⟨_, r, _, rfl⟩
  · cases h

theorem decodeEncWrite_ok {ops : List Byte} {i : Instr} (h : decodeEncWrite ops = .ok i) :
    ∃ slave a v, i = .encWrite slave a v := by
  unfold decodeEncWrite at h
  split at h <;> cases h
  exact ⟨_, _, _, rfl⟩

theorem decodeEncReadreq_ok {ops : List Byte} {i : Instr} (h : decodeEncReadreq ops = .ok i) :
    ∃ slave a, i = .encReadreq slave a := by
  unfold decodeEncReadreq at h
  split at h <;> cases h
  exact ⟨_, _, rfl⟩

theorem decodeDecReply_ok {ops : List Byte} {i : Instr} (h : decodeDecReply ops = .ok i) :
    ∃ data n, i = .decReply data n := by
  unfold decodeDecReply at h
  split at h
  · obtain ⟨n, -, rfl⟩ := map_eq_ok.1 h
    exact ⟨_, n, rfl⟩
  · cases h

theorem decodeByteWord_ok {mk : Byte → Word → Instr} {ops : List Byte} {i : Instr}
    (h : decodeByteWord mk ops = .ok i) : ∃ b v, i = mk b v := by
  unfold decodeByteWord at h
  split at h <;> cases h
  exact ⟨_, _, rfl⟩

theorem decodeByte_ok {mk : Byte → Instr} {ops : List Byte} {i : Instr} (h : decodeByte mk ops = .ok i) :
    ∃ b, i = mk b := by
  unfold decodeByte at h
  split at h <;> cases h
  exact ⟨_, rfl⟩

/-- The operand fields of a command code give a well-formed operation (30_encoding.md R83, R85). -/
theorem decodeOperands_wf {cfg : Config} {code : Nibble} {ops : List Byte} {i : Instr}
    (h : decodeOperands cfg code ops = .ok i) : i.wf cfg = true := by
  unfold decodeOperands at h
  split at h
  · obtain ⟨_, _, _, rfl⟩ := decodeCrcInittable_ok h
    rfl
  · obtain ⟨_, _, _, hd, rfl⟩ := decodeBytesNIndex_ok h
    simp [Instr.wf, hd]
  · obtain ⟨_, _, _, hd, rfl⟩ := decodeBytesNIndex_ok h
    simp [Instr.wf, hd]
  · obtain ⟨_, _, _, _, hd, ht, rfl⟩ := decodeXchg_ok h
    simp [Instr.wf, hd, ht]
  · obtain ⟨_, _, _, rfl⟩ := decodeEncWrite_ok h
    rfl
  · obtain ⟨_, _, rfl⟩ := decodeEncReadreq_ok h
    rfl
  · obtain ⟨_, _, rfl⟩ := decodeDecReply_ok h
    rfl
  · obtain ⟨_, _, rfl⟩ := decodeByteWord_ok h
    rfl
  · obtain ⟨_, rfl⟩ := decodeByte_ok h
    rfl
  · obtain ⟨_, _, rfl⟩ := decodeByteWord_ok h
    rfl
  · obtain ⟨_, rfl⟩ := decodeByte_ok h
    rfl
  · cases h
    simp only [Instr.wf, decide_eq_true_eq, imp_false] at *
    omega

/-- A frame to the device is always well formed: it has no bits to spare (30_encoding.md R82). -/
theorem decodeToDevice_wf {cfg : Config} {bytes : List Byte} {i : Instr} (h : decodeToDevice cfg bytes = .ok i) :
    i.wf cfg = true := by
  unfold decodeToDevice at h
  split at h
  · split at h
    · cases h
    · split at h <;> cases h
      rfl
  · split at h
    · cases h
    · split at h <;> cases h
      rfl
  · cases h

/-- What decodes is well formed (30_encoding.md R82, R83). -/
theorem decode_wf {cfg : Config} {t : Transfer} {i : Instr} (h : decode cfg t = .ok i) : i.wf cfg = true := by
  unfold decode at h
  split at h
  · unfold decodeCommand at h
    split at h
    · cases h
    · obtain ⟨code, -, h⟩ := bind_eq_ok.1 h
      exact decodeOperands_wf h
  · exact decodeToDevice_wf h
  · obtain ⟨_, _, _, _, _, _, rfl⟩ := decodeToBlock_ok h
    rfl

end Sys2Proof

namespace Sys2Proof.Machine

/-! ## Flags -/

/-- After reset no table is seeded (10_state.md R36). -/
theorem seeded_reset (k : Nat) : State.reset.seeded k = false := by
  refine Bool.eq_false_iff.2 fun h => ?_
  obtain ⟨t, ht⟩ := seeded_iff.1 h
  simp [State.reset, Memory.reset, List.getElem?_replicate] at ht

theorem busy_iff {s : State} : s.busy = true ↔ s.xstate ≠ .idle := by simp [State.busy]

/-- Writing a table clears no SEEDED bit (10_state.md R17). -/
theorem seeded_of_tables_set {s s' : State} {j k : Nat} {t : CrcTable} (ht : s'.tables = s.tables.set k (some t))
    (h : s.seeded j = true) : s'.seeded j = true := by
  obtain ⟨u, hu⟩ := seeded_iff.1 h
  rw [seeded_iff, ht, List.getElem?_set]
  split
  · subst j
    exact ⟨t, if_pos (List.getElem?_eq_some_iff.1 hu).1⟩
  · exact ⟨u, hu⟩

/-! ## What instructions and turns leave alone -/

/-- An accept step writes no table and no control register, and leaves the offers (42_transport.md R121). -/
theorem Accepted.frame {s s' : State} {i : Instr} (h : Accepted s i s') :
    s'.tables = s.tables ∧ s'.slaveAddr = s.slaveAddr ∧ s'.offers = s.offers := by
  cases h <;> exact ⟨rfl, rfl, rfl⟩

/-- Nor does a transition of XSTATE (42_transport.md R122 to R128). -/
theorem Turn.frame {s s' : State} (h : Turn s s') :
    s'.tables = s.tables ∧ s'.slaveAddr = s.slaveAddr ∧ s'.offers = s.offers := by
  cases h <;> exact ⟨rfl, rfl, rfl⟩

/-- Only CRC.INITTABLE writes the tables, one of them and whole (10_state.md R23). -/
theorem Effect.tables_eq_or_seed {s s' : State} {i : Instr} (h : Effect s i s') :
    s'.tables = s.tables ∨ ∃ poly reflected k, i = .crcInittable poly reflected k ∧
      s'.tables = s.tables.set k.toNat (some (mkTable poly reflected)) := by
  cases h with
  | seed poly reflected k => exact .inr ⟨poly, reflected, k, rfl, rfl⟩
  | deliver | deliverFree | slaveAddr => exact .inl rfl
  | accept _ _ ha => exact .inl ha.frame.1
  | arrive => exact .inl (by simp)

/-- Only CSRRW 0 writes SLAVE_ADDR (10_state.md R20). -/
theorem Effect.slaveAddr_eq_or_csrrw {s s' : State} {i : Instr} (h : Effect s i s') :
    s'.slaveAddr = s.slaveAddr ∨ ∃ v : Word, i = .csrrw 0 v ∧ s'.slaveAddr = v.setWidth 8 := by
  cases h with
  | slaveAddr v => exact .inr ⟨v, rfl, rfl⟩
  | seed | deliver | deliverFree => exact .inl rfl
  | accept _ _ ha => exact .inl ha.frame.2.1
  | arrive => exact .inl (by simp)

/-- No instruction touches the offers: taking one is the sequencer's (10_state.md R16). -/
theorem Effect.offers_eq {s s' : State} {i : Instr} (h : Effect s i s') : s'.offers = s.offers := by
  cases h with
  | seed | deliver | deliverFree | slaveAddr => rfl
  | accept _ _ ha => exact ha.frame.2.2
  | arrive => simp

/-- What arrives from the device goes to RXBUF, as one byte after another (20_memory.md R43). -/
theorem exec_arriving {bytes : List Byte} {i : Instr} {s s' : State} (hd : decodeToBlock bytes = .ok i)
    (h : exec i s = .next s') : ∃ bs, s' = s.appendBytes bs := by
  obtain ⟨b0, b1, f, a, v, c, rfl⟩ := decodeToBlock_ok hd
  exact ⟨_, execFrameReply_next h⟩

/-! ## What a step is -/

/-- A frame that arrives is run whatever the block is doing (10_state.md R31). -/
theorem step_arrive {s : State} {rest : List Event} {bytes : List Byte} {i : Instr}
    (hs : s.schedule = .arrive bytes :: rest) (hd : decode s.cfg ⟨.toBlock, bytes⟩ = .ok i) :
    step s = exec i { s with schedule := rest } := by
  simp [step, nextAction, takeTransfer, hs, hd]

/-- A reset from outside (10_state.md R36, R37). -/
theorem step_reset {s : State} {rest : List Event} (hs : s.schedule = .reset :: rest) :
    step s = .next { s with schedule := rest }.resetBlock := by
  simp [step, nextAction, hs]

/-! ## What the agents' moves leave alone -/

/-- A move that is no reset and takes no offer writes no table and no control register, and leaves the offers. -/
theorem Move.frame {s s' : State} (h : Move s s') :
    (∃ rest, s.schedule = .reset :: rest) ∨
    (∃ rest o os i, s.sequencerNext rest ∧ s.xstate = .idle ∧ s.offers = o :: os ∧ decode s.cfg o.transfer = .ok i ∧
      Effect { s with offers := os, schedule := rest } i s') ∨
    (s'.tables = s.tables ∧ s'.slaveAddr = s.slaveAddr ∧ s'.offers = s.offers) := by
  cases h with
  | reset rest hn => exact .inl ⟨rest, hn⟩
  | offer rest hn hx o os ho i hd _ he => exact .inr (.inl ⟨rest, o, os, i, hn, hx, ho, hd, (exec_effect he).1⟩)
  | idle | clock => exact .inr (.inr ⟨rfl, rfl, rfl⟩)
  | busy _ _ _ _ ht => exact .inr (.inr ht.frame)
  | byte => exact .inr (.inr (by simp))
  | arrive _ _ _ _ hd _ he =>
    obtain ⟨bs, rfl⟩ := exec_arriving hd he
    exact .inr (.inr (by simp))

/-- A step that changes the tables is a reset or takes an offer of CRC.INITTABLE (10_state.md R23). -/
theorem step_tables {s s' : State} (h : step s = .next s') :
    s'.tables = s.tables ∨ (∃ rest, s.schedule = .reset :: rest) ∨
    ∃ rest o os poly reflected k, s.sequencerNext rest ∧ s.xstate = .idle ∧ s.offers = o :: os ∧
      decode s.cfg o.transfer = .ok (.crcInittable poly reflected k) ∧
      s'.tables = s.tables.set k.toNat (some (mkTable poly reflected)) := by
  obtain hr | ⟨rest, o, os, i, hn, hx, ho, hd, he⟩ | ⟨ht, -, -⟩ := (step_move h).frame
  · exact .inr (.inl hr)
  · obtain ht | ⟨poly, reflected, k, rfl, ht⟩ := he.tables_eq_or_seed
    · exact .inl ht
    · exact .inr (.inr ⟨rest, o, os, poly, reflected, k, hn, hx, ho, hd, ht⟩)
  · exact .inl ht

/-- A step that changes SLAVE_ADDR is a reset or takes an offer of CSRRW 0 (10_state.md R20). -/
theorem step_slaveAddr {s s' : State} (h : step s = .next s') :
    s'.slaveAddr = s.slaveAddr ∨ (∃ rest, s.schedule = .reset :: rest) ∨
    ∃ (rest : List Event) (o : HostOffer) (os : List HostOffer) (v : Word), s.sequencerNext rest ∧ s.xstate = .idle ∧
      s.offers = o :: os ∧ decode s.cfg o.transfer = .ok (.csrrw 0 v) ∧ s'.slaveAddr = v.setWidth 8 := by
  obtain hr | ⟨rest, o, os, i, hn, hx, ho, hd, he⟩ | ⟨-, ha, -⟩ := (step_move h).frame
  · exact .inr (.inl hr)
  · obtain ha | ⟨v, rfl, ha⟩ := he.slaveAddr_eq_or_csrrw
    · exact .inl ha
    · exact .inr (.inr ⟨rest, o, os, v, hn, hx, ho, hd, ha⟩)
  · exact .inl ha

/-- A step of a busy block takes no offer (10_state.md R16). -/
theorem step_offers_of_busy {s s' : State} (hx : s.xstate ≠ .idle) (h : step s = .next s') : s'.offers = s.offers := by
  obtain ⟨rest, hs⟩ | ⟨_, _, _, _, _, hi, -⟩ | ⟨-, -, ho⟩ := (step_move h).frame
  · rw [step_reset hs] at h
    cases h
    rfl
  · exact absurd hi hx
  · exact ho

/-! ## The invariant -/

/-- The bytes that an overlay reaches are written (10_state.md R15). -/
theorem written_overlay {bs : List Byte} {a : List (Option Byte)} {n : Nat} (h : n ≤ bs.length) :
    written n (overlay bs a) := by
  intro i hi
  have hb : i < bs.length := hi.trans_le h
  simp [overlay_getElem?, hb]

/-- `s` with everything outside its exchange taken from `u`: SLAVE_ADDR, the tables, RXBUF, NOW, the histories and the queues. -/
def State.withSurroundings (s u : State) : State :=
  { s with
    slaveAddr := u.slaveAddr, tables := u.tables, rxbuf := u.rxbuf, now := u.now, line := u.line, results := u.results,
    offers := u.offers, schedule := u.schedule, freeUses := u.freeUses }

/-- What stands outside the exchange is free within its own bounds, as long as the codec's table stays seeded if it was. -/
theorem State.Inv.withSurroundings {s u : State} (h : s.Inv) (hnow : u.now < s.cfg.clockRange)
    (hrx : u.rxbuf.length ≤ s.cfg.rxCap) (htab : Memory.wf s.cfg.nCrcTables u.tables = true)
    (hseed : s.seeded s.cfg.crcIndex = true → u.seeded s.cfg.crcIndex = true) : (s.withSurroundings u).Inv :=
  { h with
    now := hnow
    rxbuf := hrx
    tables := htab
    flight := fun hx =>
      have ⟨wl, rl, tm, hf⟩ := h.flight hx
      ⟨wl, rl, tm, { hf with
        rdreg := fun ho =>
          have ⟨hw, hr, ht, ha, hs⟩ := hf.rdreg ho
          ⟨hw, hr, ht, ha, hseed hs⟩ }⟩ }

/-! ### Moves that leave the exchange alone -/

/-- The offers and the schedule are the agents' own (10_state.md R10). -/
theorem State.Inv.withQueues {s : State} (h : s.Inv) (os : List HostOffer) (rest : List Event) :
    ({ s with offers := os, schedule := rest } : State).Inv :=
  h.withSurroundings (u := { s with offers := os, schedule := rest }) h.now h.rxbuf h.tables id

theorem State.Inv.deliver {s : State} (h : s.Inv) (r : Response) : (s.deliver r).Inv :=
  h.withSurroundings (u := s.deliver r) h.now h.rxbuf h.tables id

theorem State.Inv.deliverFree {s : State} (h : s.Inv) (f : Nat → Response) : (s.deliverFree f).Inv :=
  h.withSurroundings (u := s.deliverFree f) h.now h.rxbuf h.tables id

theorem State.Inv.withSlaveAddr {s : State} (h : s.Inv) (b : Byte) : ({ s with slaveAddr := b } : State).Inv :=
  h.withSurroundings (u := { s with slaveAddr := b }) h.now h.rxbuf h.tables id

theorem State.Inv.tick {s : State} (h : s.Inv) (more : Nat) : (s.tick more).Inv :=
  h.withSurroundings (u := s.tick more) (tick_now_lt s more) h.rxbuf h.tables id

/-- Seeding keeps the tables' canonical form (10_state.md R23). -/
theorem State.Inv.writeTable {s : State} (h : s.Inv) (k : Nat) (poly : Byte) (reflected : Bool) :
    (s.writeTable k (mkTable poly reflected)).Inv :=
  h.withSurroundings (u := s.writeTable k (mkTable poly reflected)) h.now h.rxbuf (Memory.wf_set h.tables poly reflected)
    (seeded_of_tables_set rfl)

/-- A byte that arrives leaves RXBUF within RX_CAP (10_state.md R31). -/
theorem State.Inv.appendByte {s : State} (h : s.Inv) (b : Byte) : (s.appendByte b).Inv := by
  have hs : s.appendByte b = s.withSurroundings (s.appendByte b) := by
    unfold State.appendByte
    split <;> rfl
  rw [hs]
  refine h.withSurroundings ?_ (appendByte_rxbuf_le s b) ?_ ?_
  · simpa using h.now
  · simpa using h.tables
  · simp [State.seeded]

theorem State.Inv.appendBytes {s : State} (h : s.Inv) (bs : List Byte) : (s.appendBytes bs).Inv := by
  induction bs generalizing s with
  | nil => exact h
  | cons b bs ih => exact ih (h.appendByte b)

/-! ### Acceptance -/

/-- An accept step that writes all the bytes its lengths speak of, with the lengths its operation has, starts an exchange that
holds together (42_transport.md R121, 44_register_engine.md R171, R172). -/
theorem State.Inv.accept {s : State} {op : CurOp} {bytes : List Byte} {wl rl : Nibble} {tm : Nat} {a : Option RegAddr}
    (h : s.Inv) (hop : op ≠ .none) (hl : bytes.length = wl.toNat) (hw : wl.toNat ≤ s.cfg.maxXfer)
    (hr : rl.toNat ≤ s.cfg.maxXfer) (ht : tm < s.cfg.clockRange)
    (hwrreg : op = .wrreg → wl = Config.writeLen ∧ rl = 0 ∧ tm = s.cfg.timeoutMs ∧ a.isSome)
    (hrdreg : op = .rdreg → wl = Config.readreqLen ∧ rl = Config.replyLen ∧ tm = s.cfg.timeoutMs ∧ a.isSome ∧
      s.seeded s.cfg.crcIndex = true) :
    ({ s.accept op bytes wl rl tm with addr := a } : State).Inv :=
  { h with
    size := ⟨(length_overlay (by rw [hl, h.size.1]; exact hw)).trans h.size.1, h.size.2⟩
    times := by
      rintro t (e | e)
      · cases e
        exact ht
      · exact h.times t (.inr e)
    owner := ⟨fun e => absurd e hop, nofun⟩
    flight := fun _ => ⟨wl, rl, tm, {
      wlen := rfl
      rlen := rfl
      tmo := rfl
      wlen_le := hw
      rlen_le := hr
      frame := written_overlay hl.ge
      settle := nofun
      poll := nofun
      wrreg := hwrreg
      rdreg := hrdreg }⟩ }

/-- Each accept step is one of this kind, its operands being within their bounds (42_transport.md R121,
44_register_engine.md R171, R172; log 6). -/
theorem Accepted.inv {s s' : State} {i : Instr} (ha : Accepted s i s') (hi : i.wf s.cfg = true) (h : s.Inv) :
    s'.Inv := by
  obtain ⟨-, hx, -, ht, -⟩ := h.cfg
  have hx4 : 4 ≤ s.cfg.maxXfer := by omega
  cases ha with
  | xchg data wl rl tm hw hr =>
    simp only [Instr.wf, Bool.and_eq_true, beq_iff_eq, decide_eq_true_eq] at hi
    exact h.accept (a := s.addr) nofun (by simp [hi.1, hw]) hw hr hi.2 nofun nofun
  | wrreg a v t =>
    exact h.accept nofun rfl hx (Nat.zero_le _) ht (fun _ => ⟨rfl, rfl, rfl, rfl⟩) nofun
  | rdreg a t hs =>
    exact h.accept nofun rfl hx4 hx ht nofun fun _ => ⟨rfl, rfl, rfl, rfl, seeded_iff.2 ⟨t, hs⟩⟩
  | frameWrite => exact h.accept (a := s.addr) nofun rfl hx (Nat.zero_le _) ht nofun nofun
  | frameReadreq => exact h.accept (a := s.addr) nofun rfl hx4 hx ht nofun nofun

/-! ### The transitions of an exchange in flight -/

/-- An exchange in flight stays one when the receive buffer is cleared (42_transport.md R122). -/
theorem State.Inv.cleared {s : State} (h : s.Inv) (hx : s.xstate ≠ .idle) :
    ({ s.clearBuffers with xstate := .write } : State).Inv :=
  { h with
    rxbuf := Nat.zero_le _
    owner := ⟨fun ho => absurd (h.owner.1 ho) hx, nofun⟩
    flight := fun _ =>
      have ⟨wl, rl, tm, hf⟩ := h.flight hx
      ⟨wl, rl, tm, { hf with settle := nofun, poll := nofun }⟩ }

/-- The same when its bytes are handed over, which writes TS (42_transport.md R123). -/
theorem State.Inv.transmitted {s : State} (h : s.Inv) (hx : s.xstate ≠ .idle) (bytes : List Byte) :
    ({ s.transmit bytes with ts := some s.now, xstate := .settle } : State).Inv :=
  { h with
    times := by
      rintro t (e | e | e)
      · exact h.times t (.inl e)
      · cases e
        exact h.now
      · exact h.times t (.inr (.inr e))
    owner := ⟨fun ho => absurd (h.owner.1 ho) hx, nofun⟩
    flight := fun _ =>
      have ⟨wl, rl, tm, hf⟩ := h.flight hx
      ⟨wl, rl, tm, { hf with settle := fun _ => rfl, poll := nofun }⟩ }

/-- The same when polling for a reply begins, which writes TP (42_transport.md R125). -/
theorem State.Inv.polling {s : State} {wl rl : Nibble} {tm : Nat} (h : s.Inv) (hx : s.xstate ≠ .idle)
    (hf : s.InFlight wl rl tm) (h0 : rl ≠ 0) : ({ s with tp := some s.now, xstate := .poll } : State).Inv :=
  { h with
    times := by
      rintro t (e | e | e)
      · exact h.times t (.inl e)
      · exact h.times t (.inr (.inl e))
      · cases e
        exact h.now
    owner := ⟨fun ho => absurd (h.owner.1 ho) hx, nofun⟩
    flight := fun _ => ⟨wl, rl, tm, { hf with settle := nofun, poll := fun _ => ⟨rfl, h0⟩ }⟩ }

/-- An exchange that ends without a reply keeps RB, and can end so in every way but ChecksumMismatch (42_transport.md R125,
R127). -/
theorem State.Inv.complete {s : State} (h : s.Inv) (rdata : Option Word) {r : ResultCode} (hr : r ≠ .checksumMismatch)
    (p : Response) : ({ s with rdata := rdata }.complete r p).Inv :=
  { h with
    owner := ⟨fun _ => rfl, fun _ => rfl⟩
    flight := fun hx => absurd rfl hx
    mismatch := fun e => absurd e hr }

/-- An exchange that ends with a reply of `n` bytes has written these bytes of RB (42_transport.md R126); with ChecksumMismatch it
was RDREG's, which leaves the sentinel (60_exceptions.md R190). -/
theorem State.Inv.takeReply_complete {s : State} {n : Nibble} {rdata : Option Word} {r : ResultCode} (h : s.Inv)
    (hn : n.toNat ≤ s.cfg.maxXfer) (ha : n.toNat ≤ s.rxbuf.length)
    (hr : r = .checksumMismatch → n = Config.replyLen ∧ rdata = some s.cfg.staleSentinel) (p : Response) :
    ({ s.takeReply n with rdata := rdata }.complete r p).Inv :=
  have hl : (s.received n.toNat).length = n.toNat := List.length_take_of_le ha
  { h with
    size := ⟨h.size.1, (length_overlay (by rw [hl, h.size.2]; exact hn)).trans h.size.2⟩
    rxbuf := (List.length_drop.trans_le (Nat.sub_le _ _)).trans h.rxbuf
    owner := ⟨fun _ => rfl, fun _ => rfl⟩
    flight := fun hx => absurd rfl hx
    reply := by
      rintro m ⟨⟩
      exact ⟨hn, written_overlay hl.ge⟩
    noReply := nofun
    mismatch := fun e =>
      have ⟨hlen, hdata⟩ := hr e
      ⟨congrArg some hlen, hdata⟩ }

/-- Every transition of XSTATE keeps the invariant (42_transport.md R122 to R128). -/
theorem Turn.inv {s s' : State} (ht : Turn s s') (hx : s.xstate ≠ .idle) (h : s.Inv) : s'.Inv := by
  obtain ⟨wl, rl, tm, hf⟩ := h.flight hx
  have hrl : s.latchNibble s.rlen = rl := by simp [hf.rlen]
  cases ht with
  | hold | wait => exact h
  | clear => exact h.cleared hx
  | write => exact h.transmitted hx _
  | startPoll _ _ h0 => exact h.polling hx hf (hrl ▸ h0)
  | written => exact h.complete s.rdata (by decide) _
  | timedOut => exact h.complete s.rdata (by decide) _
  | sentinel => exact h.complete (some s.cfg.staleSentinel) (by decide) _
  | received _ ha =>
    rw [hrl] at ha ⊢
    exact h.takeReply_complete (rdata := s.rdata) hf.rlen_le ha (by nofun) _
  | value _ ha _ _ _ _ v =>
    rw [hrl] at ha ⊢
    exact h.takeReply_complete (rdata := some v) hf.rlen_le ha (by nofun) _
  | mismatch _ ha ho =>
    rw [hrl] at ha ⊢
    obtain ⟨-, hlen, -⟩ := hf.rdreg ho
    exact h.takeReply_complete hf.rlen_le ha (fun _ => ⟨hlen, rfl⟩) _

/-! ### Every move -/

theorem Effect.inv {s s' : State} {i : Instr} (he : Effect s i s') (hi : i.wf s.cfg = true) (h : s.Inv) : s'.Inv := by
  cases he with
  | seed poly reflected k => exact h.writeTable k.toNat poly reflected
  | deliver _ r => exact h.deliver r
  | deliverFree _ f => exact h.deliverFree f
  | slaveAddr v => exact h.withSlaveAddr _
  | accept _ _ ha => exact ha.inv hi h
  | arrive => exact h.appendBytes _

/-- An instruction that the port or the wire can carry keeps the invariant. -/
theorem exec_inv {s s' : State} {i : Instr} (he : exec i s = .next s') (hi : i.wf s.cfg = true) (h : s.Inv) : s'.Inv :=
  (exec_effect he).1.inv hi h

/-- Reset leaves the invariant's values in the block, whatever stands outside it (10_state.md R36, R37). -/
theorem State.Inv.resetBlock {s : State} (hc : s.cfg.wf) (hn : s.now < s.cfg.clockRange)
    (hr : s.rxbuf.length ≤ s.cfg.rxCap) : s.resetBlock.Inv where
  cfg := hc
  size := ⟨List.length_replicate, List.length_replicate⟩
  now := hn
  times := nofun
  tables := Memory.wf_reset _
  rxbuf := hr
  owner := ⟨fun _ => rfl, fun _ => rfl⟩
  flight := fun hx => absurd rfl hx
  reply := nofun
  noReply := fun _ => rfl
  mismatch := nofun

theorem Move.inv {s s' : State} (hm : Move s s') (h : s.Inv) : s'.Inv := by
  have hq : ∀ rest, ({ s with schedule := rest } : State).Inv := h.withQueues s.offers
  cases hm with
  | idle rest => exact hq rest
  | offer rest _ _ _ os _ _ hd _ he => exact exec_inv he (decode_wf hd) (h.withQueues os rest)
  | busy rest _ hx _ ht => exact ht.inv hx (hq rest)
  | byte b rest => exact (hq rest).appendByte b
  | arrive bytes rest _ _ hd _ he => exact exec_inv he (decode_wf (t := ⟨.toBlock, bytes⟩) hd) (hq rest)
  | clock more rest => exact (hq rest).tick more
  | reset rest => exact .resetBlock h.cfg h.now h.rxbuf

end Sys2Proof.Machine

namespace Sys2Proof.Proofs

open Sys2Proof.Machine

/-- Settles O17: a step that answers a next state is one of the agents' moves, and each of them keeps the invariant: an accept step
starts an exchange that holds together, a transition goes on with it or ends it, and every other move leaves it alone. -/
theorem stepKeepsTheInvariant : Obligations.StepKeepsTheInvariant :=
  fun _ _ h hs => (step_move hs).inv h

/-- Settles O16: the state after reset is what a reset leaves of itself. -/
theorem resetMeetsTheInvariant : Obligations.ResetMeetsTheInvariant :=
  State.Inv.resetBlock (s := State.reset) default_wf (clockRange_pos _) (Nat.zero_le _)

/-- Settles O8: only an idle turn takes an offer, and the instruction it runs leaves the offers behind it. -/
theorem offersWaitWhileBusy : Obligations.OffersWaitWhileBusy := by
  refine ⟨fun _ => busy_iff, fun s s' hb => step_offers_of_busy (busy_iff.1 hb), fun s rest o os i s' hb hn ho hd h => ?_⟩
  have hx : s.xstate = .idle := not_not.1 (mt busy_iff.2 (by simp [hb]))
  rw [step_offer hn hx ho hd] at h
  exact (exec_effect h).1.offers_eq

/-- Settles O21: among the moves only reset and a taken CRC.INITTABLE write the tables, and the latter writes a seeded one. -/
theorem tablesAreWrittenOnlyBySeeding : Obligations.TablesAreWrittenOnlyBySeeding := by
  refine ⟨fun s s' h hne => (step_tables h).resolve_left hne, fun i s s' h hne => ?_, fun s s' k h hr hk => ?_⟩
  · exact (exec_effect h).1.tables_eq_or_seed.resolve_left hne
  · obtain ht | ⟨rest, hs⟩ | ⟨_, _, _, _, _, _, _, _, _, _, ht⟩ := step_tables h
    · simpa [State.seeded, ht] using hk
    · exact absurd hs (hr rest)
    · exact seeded_of_tables_set ht hk

/-- Settles O22: among the moves only reset and a taken CSRRW 0 write SLAVE_ADDR. -/
theorem slaveAddrIsWrittenOnlyByCsrrw : Obligations.SlaveAddrIsWrittenOnlyByCsrrw :=
  ⟨fun _ _ h hne => (step_slaveAddr h).resolve_left hne,
    fun _ _ _ h hne => (exec_effect h).1.slaveAddr_eq_or_csrrw.resolve_left hne⟩

/-- Settles O5, which is what a step with an offer at the port is. -/
theorem stepRunsTheOffer : Obligations.StepRunsTheOffer :=
  fun _ _ _ _ _ => step_offer

/-- Settles O6, which is what a step with a frame on the wire is. -/
theorem stepRunsTheArrivingFrame : Obligations.StepRunsTheArrivingFrame :=
  fun _ _ _ _ => step_arrive

/-- Settles O7: whichever channel the word's transfer is on, it stands where the next step takes one from there. -/
theorem fetchWordIsRunNext : Obligations.FetchWordIsRunNext := by
  intro s nbits w i hd
  unfold State.withFetchWord
  generalize tableTransfer s.cfg nbits w = t at hd ⊢
  obtain ⟨channel, bytes⟩ := t
  cases channel with
  | command => exact step_offer (.inl rfl) rfl rfl hd
  | toDevice => exact step_offer (.inl rfl) rfl rfl hd
  | toBlock => exact step_arrive rfl hd

/-- Settles O14: the table memory is a list of unseeded tables, the latches are unwritten. -/
theorem resetValues : Obligations.ResetValues := by
  refine ⟨rfl, rfl, rfl, rfl, seeded_reset, fun k => ?_, rfl, rfl, fun i hi => ?_, rfl, rfl, rfl, rfl, rfl, rfl, rfl, rfl⟩
  · simp [State.reset, Memory.reset, List.getElem?_replicate]
  · simp [State.reset, unwrittenBytes, hi]

/-- Settles O15: reset writes every field of the block as `State.reset` has it for this configuration. -/
theorem resetAbandonsTheExchange : Obligations.ResetAbandonsTheExchange :=
  fun _ _ => step_reset

/-- Settles O56: the view is made of three fields of 1, 3 and 1 bits, and each stands where R19 puts it whatever they hold. -/
theorem statusBits : Obligations.StatusBits := by
  intro s
  unfold State.status
  generalize s.busy = b, s.result.code = r, s.seeded s.cfg.crcIndex = d
  revert b r d
  decide

end Sys2Proof.Proofs
end

section
/-! Proofs for 20_memory.md: bytes on the wire enter RXBUF in their order, one by one or as a reply frame in one move (R43). -/

namespace Sys2Proof.Machine

/-! ## Bytes one by one -/

/-- The bus environment's move appends its byte (60_exceptions.md R212). -/
theorem step_byte {s : State} {b : Byte} {rest : List Event} (hs : s.schedule = .byte b :: rest) :
    step s = .next ({ s with schedule := rest }.appendByte b) := by
  simp [step, nextAction, hs]

/-- A byte's arrival does not depend on which moves come next (10_state.md R10). -/
theorem appendByte_withSchedule (s : State) (b : Byte) (sched : List Event) :
    { s with schedule := sched }.appendByte b = { s.appendByte b with schedule := sched } := by
  unfold State.appendByte
  split <;> rfl

/-- A run goes on from what its first step answers. -/
theorem run_succ_of_step {s s' : State} (h : step s = .next s') (k : Nat) : core.run (k + 1) s = core.run k s' := by
  have hcore : core.step s = .next s' := h
  simp only [Host.Core.run, hcore]

/-- Bytes scheduled one by one are appended in their order, in as many steps (20_memory.md R43). -/
theorem run_bytes {s : State} {bytes : List Byte} {rest : List Event} (hs : s.schedule = bytes.map .byte ++ rest) :
    core.run bytes.length s = .next ({ s with schedule := rest }.appendBytes bytes) := by
  induction bytes generalizing s with
  | nil =>
    obtain rfl := hs
    rfl
  | cons b bs ih =>
    rw [List.length_cons, run_succ_of_step (step_byte hs), ih (by simp), ← appendByte_withSchedule]
    rfl

/-! ## A reply frame in one move -/

/-- A reply frame appends the bytes it is made of (30_encoding.md R73). -/
theorem exec_frameReply (b0 b1 : Byte) (f : Bool) (a : RegAddr) (v : Word) (c : Byte) (s : State) :
    exec (.frameReply b0 b1 f a v c) s = .next (s.appendBytes (replyBody b0 b1 f a v ++ [c])) := rfl

/-- Eight bytes to the block are a reply frame whatever they are, and running it appends these bytes (30_encoding.md R73, R79). -/
theorem decodeToBlock_appends {bytes : List Byte} (h : bytes.length = 8) :
    ∃ i, decodeToBlock bytes = .ok i ∧ ∀ s, exec i s = .next (s.appendBytes bytes) := by
  match bytes, h with
  | [b0, b1, b2, b3, b4, b5, b6, b7], _ =>
    refine ⟨_, rfl, fun s => ?_⟩
    rw [exec_frameReply, replyBody, addrByte_writeFlag, payloadBytes_payloadOf]
    rfl

/-- The arrival of eight bytes in one move appends them (20_memory.md R43). -/
theorem step_arrive_appends {s : State} {bytes : List Byte} {rest : List Event}
    (hs : s.schedule = .arrive bytes :: rest) (h : bytes.length = 8) :
    step s = .next ({ s with schedule := rest }.appendBytes bytes) := by
  obtain ⟨i, hd, he⟩ := decodeToBlock_appends h
  rw [step_arrive hs hd, he]

end Sys2Proof.Machine

namespace Sys2Proof.Proofs

open Sys2Proof.Machine

/-- Settles O59: a reply frame appends its eight bytes, which stand in order where there is room; the arrival in one move and the
eight single arrivals append the same bytes to the same state. -/
theorem replyFrameArrives : Obligations.ReplyFrameArrives := by
  refine ⟨fun s b0 b1 f a v c hroom => ?_, fun s bytes rest hlen => ?_⟩
  · exact (exec_frameReply b0 b1 f a v c s).trans (congrArg _ (appendBytes_of_room hroom))
  · have hrun : core.run bytes.length { s with schedule := bytes.map .byte ++ rest } = _ := run_bytes rfl
    rw [hlen] at hrun
    exact (step_arrive_appends rfl hlen).trans hrun.symm

end Sys2Proof.Proofs
end

section
/-! Proofs for 30_encoding.md: decoding and encoding undo each other (R71 to R73, R82, R83), the refused command codes (R85), how
often a step delivers and transmits (R84), and lengths above MAX_XFER at the checksum operations (R83). -/

namespace Sys2Proof

open Sys2Proof.Machine

/-! ## What each line and each group of operand lines decodes to

One equivalence per decoder: it accepts exactly the bytes that begin with the encoding of its answer. -/

theorem nibbleOf_eq_ok_iff {b : Byte} {n : Nibble} : nibbleOf b = .ok n ↔ nibbleByte n = b :=
  ⟨nibbleByte_of_nibbleOf, fun h => h ▸ nibbleOf_nibbleByte n⟩

theorem boolOf_eq_ok_iff {b : Byte} {x : Bool} : boolOf b = .ok x ↔ boolByte x = b :=
  ⟨boolByte_of_boolOf, fun h => h ▸ boolOf_boolByte x⟩

/-- What is decoded behind `k` byte lines sees these lines and the rest. -/
theorem takeLines_bind_eq_ok_iff {k : Nat} {ops : List Byte} {i : Instr}
    {f : List Byte × List Byte → Except DecodeError Instr} :
    (takeLines k ops).bind f = .ok i ↔ ∃ data rest, data.length = k ∧ ops = data ++ rest ∧ f (data, rest) = .ok i := by
  rw [bind_eq_ok]
  constructor
  · rintro ⟨⟨data, rest⟩, hp, h⟩
    obtain ⟨hl, hops⟩ := takeLines_ok hp
    exact ⟨data, rest, hl, hops, h⟩
  · rintro ⟨data, rest, hl, rfl, h⟩
    exact ⟨_, takeLines_append hl, h⟩

theorem decodeTime_eq_ok_iff {cfg : Config} {ops : List Byte} {t : Nat} :
    decodeTime cfg ops = .ok t ↔ t < cfg.clockRange ∧ bytesBE cfg.clockBytes t <+: ops := by
  refine ⟨decodeTime_ok, ?_⟩
  rintro ⟨ht, rest, rfl⟩
  exact decodeTime_bytesBE ht rest

theorem decodeCrcInittable_eq_ok_iff {ops : List Byte} {i : Instr} :
    decodeCrcInittable ops = .ok i ↔
      ∃ poly reflected k, i = .crcInittable poly reflected k ∧ [poly, boolByte reflected, k] <+: ops := by
  constructor
  · intro h
    unfold decodeCrcInittable at h
    split at h
    · obtain ⟨reflected, hr, rfl⟩ := map_eq_ok.1 h
      obtain rfl := boolOf_eq_ok_iff.1 hr
      exact ⟨_, _, _, rfl, _, rfl⟩
    · cases h
  · rintro ⟨poly, reflected, k, rfl, rest, rfl⟩
    simp [decodeCrcInittable, Except.map]

theorem decodeNIndex_eq_ok_iff {mk : List Byte → Nibble → Byte → Instr} {data ops : List Byte} {i : Instr} :
    decodeNIndex mk data ops = .ok i ↔ ∃ n k, i = mk data n k ∧ [nibbleByte n, k] <+: ops := by
  constructor
  · intro h
    unfold decodeNIndex at h
    split at h
    · obtain ⟨n, hn, rfl⟩ := map_eq_ok.1 h
      obtain rfl := nibbleOf_eq_ok_iff.1 hn
      exact ⟨_, _, rfl, _, rfl⟩
    · cases h
  · rintro ⟨n, k, rfl, rest, rfl⟩
    simp [decodeNIndex, Except.map]

theorem decodeBytesNIndex_eq_ok_iff {cfg : Config} {mk : List Byte → Nibble → Byte → Instr} {ops : List Byte} {i : Instr} :
    decodeBytesNIndex cfg mk ops = .ok i ↔
      ∃ data n k, i = mk data n k ∧ data.length = cfg.maxXfer ∧ data ++ [nibbleByte n, k] <+: ops := by
  simp only [decodeBytesNIndex, takeLines_bind_eq_ok_iff, decodeNIndex_eq_ok_iff]
  constructor
  · rintro ⟨data, rest, hl, rfl, n, k, rfl, hp⟩
    exact ⟨data, n, k, rfl, hl, (List.prefix_append_right_inj data).2 hp⟩
  · rintro ⟨data, n, k, rfl, hl, rest, rfl⟩
    exact ⟨data, [nibbleByte n, k] ++ rest, hl, List.append_assoc .., n, k, rfl, List.prefix_append ..⟩

theorem decodeLengthsTime_eq_ok_iff {cfg : Config} {data ops : List Byte} {i : Instr} :
    decodeLengthsTime cfg data ops = .ok i ↔ ∃ wl rl t, i = .xchg data wl rl t ∧ t < cfg.clockRange ∧
      [nibbleByte wl, nibbleByte rl] ++ bytesBE cfg.clockBytes t <+: ops := by
  constructor
  · intro h
    unfold decodeLengthsTime at h
    split at h
    · obtain ⟨wl, hw, h⟩ := bind_eq_ok.1 h
      obtain ⟨rl, hr, h⟩ := bind_eq_ok.1 h
      obtain ⟨t, ht, rfl⟩ := map_eq_ok.1 h
      obtain rfl := nibbleOf_eq_ok_iff.1 hw
      obtain rfl := nibbleOf_eq_ok_iff.1 hr
      obtain ⟨hlt, rest, rfl⟩ := decodeTime_eq_ok_iff.1 ht
      exact ⟨wl, rl, t, rfl, hlt, rest, rfl⟩
    · cases h
  · rintro ⟨wl, rl, t, rfl, ht, rest, rfl⟩
    simp [decodeLengthsTime, Except.bind, Except.map, decodeTime_bytesBE ht]

theorem decodeXchg_eq_ok_iff {cfg : Config} {ops : List Byte} {i : Instr} :
    decodeXchg cfg ops = .ok i ↔ ∃ data wl rl t, i = .xchg data wl rl t ∧ data.length = cfg.maxXfer ∧ t < cfg.clockRange ∧
      data ++ [nibbleByte wl, nibbleByte rl] ++ bytesBE cfg.clockBytes t <+: ops := by
  simp only [decodeXchg, takeLines_bind_eq_ok_iff, decodeLengthsTime_eq_ok_iff, List.append_assoc]
  constructor
  · rintro ⟨data, rest, hl, rfl, wl, rl, t, rfl, ht, hp⟩
    exact ⟨data, wl, rl, t, rfl, hl, ht, (List.prefix_append_right_inj data).2 hp⟩
  · rintro ⟨data, wl, rl, t, rfl, hl, ht, rest, rfl⟩
    exact ⟨data, _, hl, List.append_assoc .., wl, rl, t, rfl, ht, List.prefix_append ..⟩

theorem decodeEncWrite_eq_ok_iff {ops : List Byte} {i : Instr} :
    decodeEncWrite ops = .ok i ↔ ∃ slave a v, i = .encWrite slave a v ∧ [slave, a] ++ payloadBytes v <+: ops := by
  constructor
  · intro h
    unfold decodeEncWrite at h
    split at h <;> cases h
    refine ⟨_, _, _, rfl, ?_⟩
    rw [payloadBytes_payloadOf]
    exact ⟨_, rfl⟩
  · rintro ⟨slave, a, v, rfl, rest, rfl⟩
    simp [decodeEncWrite, payloadBytes]

theorem decodeEncReadreq_eq_ok_iff {ops : List Byte} {i : Instr} :
    decodeEncReadreq ops = .ok i ↔ ∃ slave a, i = .encReadreq slave a ∧ [slave, a] <+: ops := by
  constructor
  · intro h
    unfold decodeEncReadreq at h
    split at h <;> cases h
    exact ⟨_, _, rfl, _, rfl⟩
  · rintro ⟨slave, a, rfl, rest, rfl⟩
    rfl

theorem decodeDecReply_eq_ok_iff {ops : List Byte} {i : Instr} :
    decodeDecReply ops = .ok i ↔
      ∃ (data : Vector Byte 8) (n : Nibble), i = .decReply data n ∧ data.toList ++ [nibbleByte n] <+: ops := by
  constructor
  · intro h
    unfold decodeDecReply at h
    split at h
    · obtain ⟨n, hn, rfl⟩ := map_eq_ok.1 h
      obtain rfl := nibbleOf_eq_ok_iff.1 hn
      exact ⟨_, _, rfl, _, rfl⟩
    · cases h
  · rintro ⟨⟨⟨data⟩, hl⟩, n, rfl, rest, rfl⟩
    match data, hl with
    | [_, _, _, _, _, _, _, _], _ => simp [decodeDecReply, Except.map]

theorem decodeByteWord_eq_ok_iff {mk : Byte → Word → Instr} {ops : List Byte} {i : Instr} :
    decodeByteWord mk ops = .ok i ↔ ∃ b v, i = mk b v ∧ [b] ++ payloadBytes v <+: ops := by
  constructor
  · intro h
    unfold decodeByteWord at h
    split at h <;> cases h
    refine ⟨_, _, rfl, ?_⟩
    rw [payloadBytes_payloadOf]
    exact ⟨_, rfl⟩
  · rintro ⟨b, v, rfl, rest, rfl⟩
    simp [decodeByteWord, payloadBytes]

theorem decodeByte_eq_ok_iff {mk : Byte → Instr} {ops : List Byte} {i : Instr} :
    decodeByte mk ops = .ok i ↔ ∃ b, i = mk b ∧ [b] <+: ops := by
  constructor
  · intro h
    unfold decodeByte at h
    split at h <;> cases h
    exact ⟨_, rfl, _, rfl⟩
  · rintro ⟨b, rfl, rest, rfl⟩
    rfl

/-! ## What each channel decodes to -/

/-- An operation goes on the command port, its code in front of its operand fields (30_encoding.md R83; log 4). -/
theorem encode_of_opCode {cfg : Config} {i : Instr} {code : Nibble} (h : i.opCode = some code) :
    encode cfg i = ⟨.command, nibbleByte code :: (encode cfg i).bytes.tail⟩ := by
  cases i <;> cases h <;> rfl

/-- What goes on the command port has a command code (30_encoding.md R83, R85). -/
theorem opCode_of_channel {cfg : Config} {i : Instr} (h : (encode cfg i).channel = .command) :
    ∃ code, i.opCode = some code := by
  cases i with
  | frameWrite | frameReadreq | frameReply => cases h
  | _ => exact ⟨_, rfl⟩

/-- Whatever the operand lines hold, codes 0xB to 0xF decode to the refused instruction of the code (30_encoding.md R85). -/
theorem decodeOperands_reserved {cfg : Config} {code : Nibble} (h : 0xB ≤ code.toNat) (ops : List Byte) :
    decodeOperands cfg code ops = .ok (.reserved code) := by
  unfold decodeOperands
  split
  case h_12 => rfl
  all_goals omega

/-- A command code that the decoder has read as a number is that code. -/
theorem some_eq_some_of_toNat_eq {c code : Nibble} (h : code.toNat = c.toNat) : some c = some code :=
  congrArg some (BitVec.eq_of_toNat_eq h.symm)

/-- The operand lines of a command code decode to a well-formed operation of that code whose operand fields they begin with. -/
theorem decodeOperands_eq_ok_iff {cfg : Config} {code : Nibble} {ops : List Byte} {i : Instr} :
    decodeOperands cfg code ops = .ok i ↔
      i.wf cfg = true ∧ i.opCode = some code ∧ (encode cfg i).bytes.tail <+: ops := by
  constructor
  · intro h
    refine ⟨decodeOperands_wf h, ?_⟩
    unfold decodeOperands at h
    split at h <;> rename_i hc
    · obtain ⟨_, _, _, rfl, hp⟩ := decodeCrcInittable_eq_ok_iff.1 h
      exact ⟨some_eq_some_of_toNat_eq hc, hp⟩
    · obtain ⟨_, _, _, rfl, -, hp⟩ := decodeBytesNIndex_eq_ok_iff.1 h
      exact ⟨some_eq_some_of_toNat_eq hc, hp⟩
    · obtain ⟨_, _, _, rfl, -, hp⟩ := decodeBytesNIndex_eq_ok_iff.1 h
      exact ⟨some_eq_some_of_toNat_eq hc, hp⟩
    · obtain ⟨_, _, _, _, rfl, -, -, hp⟩ := decodeXchg_eq_ok_iff.1 h
      exact ⟨some_eq_some_of_toNat_eq hc, hp⟩
    · obtain ⟨_, _, _, rfl, hp⟩ := decodeEncWrite_eq_ok_iff.1 h
      exact ⟨some_eq_some_of_toNat_eq hc, hp⟩
    · obtain ⟨_, _, rfl, hp⟩ := decodeEncReadreq_eq_ok_iff.1 h
      exact ⟨some_eq_some_of_toNat_eq hc, hp⟩
    · obtain ⟨_, _, rfl, hp⟩ := decodeDecReply_eq_ok_iff.1 h
      exact ⟨some_eq_some_of_toNat_eq hc, hp⟩
    · obtain ⟨_, _, rfl, hp⟩ := decodeByteWord_eq_ok_iff.1 h
      exact ⟨some_eq_some_of_toNat_eq hc, hp⟩
    · obtain ⟨_, rfl, hp⟩ := decodeByte_eq_ok_iff.1 h
      exact ⟨some_eq_some_of_toNat_eq hc, hp⟩
    · obtain ⟨_, _, rfl, hp⟩ := decodeByteWord_eq_ok_iff.1 h
      exact ⟨some_eq_some_of_toNat_eq hc, hp⟩
    · obtain ⟨_, rfl, hp⟩ := decodeByte_eq_ok_iff.1 h
      exact ⟨some_eq_some_of_toNat_eq hc, hp⟩
    · cases h
      exact ⟨rfl, List.nil_prefix⟩
  · rintro ⟨hw, hc, hp⟩
    cases i with
    | crcInittable =>
      cases hc
      exact decodeCrcInittable_eq_ok_iff.2 ⟨_, _, _, rfl, hp⟩
    | crcCalc | crcCheck =>
      cases hc
      exact decodeBytesNIndex_eq_ok_iff.2 ⟨_, _, _, rfl, beq_iff_eq.1 hw, hp⟩
    | xchg =>
      cases hc
      simp only [Instr.wf, Bool.and_eq_true, beq_iff_eq, decide_eq_true_eq] at hw
      exact decodeXchg_eq_ok_iff.2 ⟨_, _, _, _, rfl, hw.1, hw.2, hp⟩
    | encWrite =>
      cases hc
      exact decodeEncWrite_eq_ok_iff.2 ⟨_, _, _, rfl, hp⟩
    | encReadreq =>
      cases hc
      exact decodeEncReadreq_eq_ok_iff.2 ⟨_, _, rfl, hp⟩
    | decReply =>
      cases hc
      exact decodeDecReply_eq_ok_iff.2 ⟨_, _, rfl, hp⟩
    | wrreg | csrrw =>
      cases hc
      exact decodeByteWord_eq_ok_iff.2 ⟨_, _, rfl, hp⟩
    | rdreg | csrr =>
      cases hc
      exact decodeByte_eq_ok_iff.2 ⟨_, rfl, hp⟩
    | reserved =>
      cases hc
      exact decodeOperands_reserved (of_decide_eq_true hw) ops
    | frameWrite | frameReadreq | frameReply => cases hc

/-- A port image decodes to a well-formed operation whose encoding it begins with (30_encoding.md R83, R85; log 4). -/
theorem decodeCommand_eq_ok_iff {cfg : Config} {bytes : List Byte} {i : Instr} :
    decodeCommand cfg bytes = .ok i ↔
      i.wf cfg = true ∧ (encode cfg i).channel = .command ∧ (encode cfg i).bytes <+: bytes := by
  constructor
  · intro h
    cases bytes with
    | nil => cases h
    | cons op ops =>
      obtain ⟨code, hop, hops⟩ := bind_eq_ok.1 h
      obtain rfl := nibbleOf_eq_ok_iff.1 hop
      obtain ⟨hw, hc, hp⟩ := decodeOperands_eq_ok_iff.1 hops
      rw [encode_of_opCode hc]
      exact ⟨hw, rfl, List.cons_prefix_cons.2 ⟨rfl, hp⟩⟩
  · rintro ⟨hw, hch, rest, rfl⟩
    obtain ⟨code, hc⟩ := opCode_of_channel hch
    rw [encode_of_opCode hc]
    exact bind_eq_ok.2 ⟨code, nibbleOf_nibbleByte code, decodeOperands_eq_ok_iff.2 ⟨hw, hc, List.prefix_append ..⟩⟩

/-- A frame to the device decodes to the instruction that it is the encoding of (30_encoding.md R71, R72, R82). -/
theorem decodeToDevice_eq_ok_iff {cfg : Config} {bytes : List Byte} {i : Instr} :
    decodeToDevice cfg bytes = .ok i ↔ encode cfg i = ⟨.toDevice, bytes⟩ := by
  constructor
  · intro h
    unfold decodeToDevice at h
    split at h
    · split at h
      · cases h
      · rename_i b0 b1 b2 b3 hs
        split at h <;> rename_i hf <;> cases h
        obtain rfl := not_not.1 hs
        have ha : addrByte false (logicalAddr b2) = b2 := by simpa [hf] using addrByte_writeFlag b2
        simp [encode, readreqBody, ha]
    · split at h
      · cases h
      · rename_i b0 b1 b2 b3 b4 b5 b6 b7 hs
        split at h <;> rename_i hf <;> cases h
        obtain rfl := not_not.1 hs
        have ha : addrByte true (logicalAddr b2) = b2 := by simpa [hf] using addrByte_writeFlag b2
        simp [encode, writeBody, ha]
    · cases h
  · intro h
    cases i with
    | frameWrite =>
      cases h
      simp [decodeToDevice, writeBody, payloadBytes]
    | frameReadreq =>
      cases h
      simp [decodeToDevice, readreqBody]
    | _ => cases h

/-- A frame to the block decodes to the reply that it is the encoding of (30_encoding.md R73, R79). -/
theorem decodeToBlock_eq_ok_iff {cfg : Config} {bytes : List Byte} {i : Instr} :
    decodeToBlock bytes = .ok i ↔ encode cfg i = ⟨.toBlock, bytes⟩ := by
  constructor
  · intro h
    unfold decodeToBlock at h
    split at h <;> cases h
    simp [encode, replyBody]
  · intro h
    cases i with
    | frameReply =>
      cases h
      simp [decodeToBlock, replyBody, payloadBytes]
    | _ => cases h

/-- What travels on the wire is always well formed: its fields have no bits to spare (30_encoding.md R82). -/
theorem wf_of_channel_ne {cfg : Config} {i : Instr} (h : (encode cfg i).channel ≠ .command) : i.wf cfg = true := by
  cases i with
  | frameWrite | frameReadreq | frameReply => rfl
  | _ => exact absurd rfl h

/-- That a frame is the encoding of an instruction, in the terms that port images have too. -/
theorem encode_eq_frame_iff {cfg : Config} {i : Instr} {channel : Channel} {bytes : List Byte} (hch : channel ≠ .command) :
    encode cfg i = ⟨channel, bytes⟩ ↔ i.wf cfg = true ∧ (encode cfg i).channel = channel ∧ (encode cfg i).bytes <+: bytes ∧
      (channel ≠ .command → (encode cfg i).bytes = bytes) := by
  constructor
  · intro h
    refine ⟨wf_of_channel_ne (cfg := cfg) (by rwa [h]), ?_⟩
    rw [h]
    exact ⟨rfl, List.prefix_rfl, fun _ => rfl⟩
  · rintro ⟨-, rfl, -, hb⟩
    rw [← hb hch]

/-- Decoding and encoding in one: a transfer decodes to the well-formed instructions whose encoding travels on its channel and is
a leading part of its bytes, all of them for a frame. -/
theorem decode_eq_ok_iff {cfg : Config} {t : Transfer} {i : Instr} :
    decode cfg t = .ok i ↔ i.wf cfg = true ∧ (encode cfg i).channel = t.channel ∧ (encode cfg i).bytes <+: t.bytes ∧
      (t.channel ≠ .command → (encode cfg i).bytes = t.bytes) := by
  obtain ⟨channel, bytes⟩ := t
  cases channel with
  | command =>
    refine decodeCommand_eq_ok_iff.trans ?_
    simp
  | toDevice => exact decodeToDevice_eq_ok_iff.trans (encode_eq_frame_iff nofun)
  | toBlock => exact decodeToBlock_eq_ok_iff.trans (encode_eq_frame_iff nofun)

end Sys2Proof

namespace Sys2Proof.Machine

/-! ## What one step can deliver and transmit -/

/-- The result port's history grew by one transfer at most (30_encoding.md R84). -/
def State.DeliversAtMostOne (s s' : State) : Prop := s'.results = s.results ∨ ∃ r, s'.results = s.results ++ [r]

/-- The line's history grew by one hand-over at most, and only from WRITE (60_exceptions.md R209). -/
def State.TransmitsOnlyFromWrite (s s' : State) : Prop :=
  s'.line = s.line ∨ s.xstate = .write ∧ ∃ bytes, s'.line = s.line ++ [bytes]

/-- Accepting an exchange delivers nothing and transmits nothing (42_transport.md R121). -/
theorem Accepted.ports {s s' : State} {i : Instr} (h : Accepted s i s') : s'.results = s.results ∧ s'.line = s.line := by
  cases h <;> exact ⟨rfl, rfl⟩

/-- No instruction delivers more than one result (30_encoding.md R84). -/
theorem Effect.delivers {s s' : State} {i : Instr} (h : Effect s i s') : s.DeliversAtMostOne s' := by
  cases h with
  | seed | slaveAddr => exact .inl rfl
  | deliver | deliverFree => exact .inr ⟨_, rfl⟩
  | accept _ _ ha => exact .inl ha.ports.1
  | arrive => exact .inl (by simp)

/-- No instruction transmits: an exchange's bytes are handed over by a later turn (42_transport.md R123). -/
theorem Effect.line_eq {s s' : State} {i : Instr} (h : Effect s i s') : s'.line = s.line := by
  cases h with
  | seed | slaveAddr | deliver | deliverFree => rfl
  | accept _ _ ha => exact ha.ports.2
  | arrive => simp

/-- A transition of XSTATE delivers a result only where it ends the exchange, and then one (42_transport.md R125 to R127). -/
theorem Turn.delivers {s s' : State} (h : Turn s s') : s.DeliversAtMostOne s' := by
  cases h with
  | clear | write | hold | startPoll | wait => exact .inl rfl
  | written | received | value | mismatch | timedOut | sentinel => exact .inr ⟨_, rfl⟩

/-- Only the transition from WRITE transmits, in one call (42_transport.md R123). -/
theorem Turn.transmits {s s' : State} (h : Turn s s') : s.TransmitsOnlyFromWrite s' := by
  cases h with
  | write hx => exact .inr ⟨hx, _, rfl⟩
  | clear | hold | startPoll | wait | written | received | value | mismatch | timedOut | sentinel => exact .inl rfl

theorem Move.delivers {s s' : State} (h : Move s s') : s.DeliversAtMostOne s' := by
  cases h with
  | idle | clock | reset => exact .inl rfl
  | byte => exact .inl (by simp)
  | busy _ _ _ _ ht => exact ht.delivers
  | offer _ _ _ _ _ _ _ _ _ he => exact (exec_effect he).1.delivers
  | arrive _ _ _ _ _ _ he => exact (exec_effect he).1.delivers

theorem Move.transmits {s s' : State} (h : Move s s') : s.TransmitsOnlyFromWrite s' := by
  cases h with
  | idle | clock | reset => exact .inl rfl
  | byte => exact .inl (by simp)
  | busy _ _ _ _ ht => exact ht.transmits
  | offer _ _ _ _ _ _ _ _ _ he => exact .inl (exec_effect he).1.line_eq
  | arrive _ _ _ _ _ _ he => exact .inl (exec_effect he).1.line_eq

/-! ## Lengths above MAX_XFER -/

/-- CRC.CALC of more bytes than the port has delivers a free value (log 14). -/
theorem execCrcCalc_beyond {s : State} {data : List Byte} {n : Nibble} {k : Byte} {t : CrcTable} (hx : s.xstate = .idle)
    (ht : s.tables[k.toNat]? = some (some t)) (hn : s.cfg.maxXfer < n.toNat) :
    execCrcCalc data n k s = .next (s.deliverFree fun k => .crc (Config.freeCrc k)) := by
  rw [execCrcCalc, whenIdle_idle hx, withTable_seeded ht, if_neg (not_le.2 hn)]

/-- CRC.CHECK of more bytes than the port has does so too: they are not no bytes (log 14). -/
theorem execCrcCheck_beyond {s : State} {data : List Byte} {n : Nibble} {k : Byte} {t : CrcTable} (hx : s.xstate = .idle)
    (ht : s.tables[k.toNat]? = some (some t)) (hn : s.cfg.maxXfer < n.toNat) :
    execCrcCheck data n k s = .next (s.deliverFree fun k => .check (Config.freeCheck k)) := by
  have h0 : n ≠ 0 := by
    rintro rfl
    exact Nat.not_lt_zero _ hn
  rw [execCrcCheck, whenIdle_idle hx, if_neg h0, withTable_seeded ht, if_neg (not_le.2 hn)]

end Sys2Proof.Machine

namespace Sys2Proof.Proofs

open Sys2Proof.Machine

/-- Settles O1: a well-formed instruction meets what decoding to it asks of a transfer, at its own encoding and at that encoding
with more lines behind it. -/
theorem decodeUndoesEncode : Obligations.DecodeUndoesEncode :=
  fun _ _ hw =>
    ⟨decode_eq_ok_iff.2 ⟨hw, rfl, List.prefix_rfl, fun _ => rfl⟩,
      fun hc _ => decode_eq_ok_iff.2 ⟨hw, hc, List.prefix_append .., fun h => absurd rfl h⟩⟩

/-- Settles O2, which is what decoding to an instruction asks of a transfer. -/
theorem encodeUndoesDecode : Obligations.EncodeUndoesDecode :=
  fun _ _ _ => decode_eq_ok_iff.1

/-- Settles O23: an instruction delivers at most one result and transmits nothing, and of the transitions of XSTATE those that end
an exchange deliver one result and that from WRITE transmits once. -/
theorem oneResultAndOneTransmitAtMost : Obligations.OneResultAndOneTransmitAtMost :=
  fun _ _ h => ⟨(step_move h).delivers, (step_move h).transmits⟩

/-- Settles O3 by evaluating the decoder on each of the words. -/
theorem sampleWordsDecode : Obligations.SampleWordsDecode := by
  refine ⟨?_, ?_, ?_, ?_, ?_, ?_, ?_, ?_⟩ <;> rfl

/-- Settles O4: the code alone is the encoding of the refused instruction, and it is no operation. -/
theorem reservedCodesAreRefused : Obligations.ReservedCodesAreRefused :=
  fun _ _ ops _ hcode =>
    ⟨decode_eq_ok_iff.2 ⟨decide_eq_true hcode, rfl, ⟨ops, rfl⟩, fun h => absurd rfl h⟩, whenIdle_idle⟩

/-- Settles O29: the value is the one that the free constant has at the model's counter. -/
theorem checksumLengthBeyondThePortDeliversAFreeValue : Obligations.ChecksumLengthBeyondThePortDeliversAFreeValue :=
  fun _ _ _ _ _ hx ht hn => ⟨⟨_, execCrcCalc_beyond hx ht hn⟩, ⟨_, execCrcCheck_beyond hx ht hn⟩⟩

end Sys2Proof.Proofs
end

section
/-! Proofs for 41_checksum.md: the engine as one linear fold, which the table form (R101 to R104) and the bit-serial form (R105) both
come to; from it linearity (R109), what is always detected (R110) and the residues (R111); then the operations (R102 to R106) and the
signed values (R112 (b)). -/

namespace Sys2Proof.Machine

/-! ## The shift register: multiplication by x modulo the polynomial -/

theorem crcShift_xor (poly a b : Byte) : crcShift poly (a ^^^ b) = crcShift poly a ^^^ crcShift poly b := by
  unfold crcShift
  rw [BitVec.getLsbD_xor, BitVec.shiftLeft_xor_distrib]
  cases a.getLsbD 7 <;> cases b.getLsbD 7
  · rfl
  · exact BitVec.xor_assoc ..
  · change _ = a <<< 1 ^^^ poly ^^^ b <<< 1
    ac_rfl
  · change a <<< 1 ^^^ b <<< 1 = a <<< 1 ^^^ poly ^^^ (b <<< 1 ^^^ poly)
    rw [BitVec.xor_comm (b <<< 1), ← BitVec.xor_assoc, xor_cancel_right]

theorem crcShifts_eq_iterate (poly : Byte) (k : Nat) (c : Byte) : crcShifts poly k c = (crcShift poly)^[k] c := by
  induction k generalizing c with
  | zero => rfl
  | succ k ih => exact ih _

theorem crcShifts_add (poly : Byte) (m n : Nat) (c : Byte) :
    crcShifts poly (m + n) c = crcShifts poly m (crcShifts poly n c) := by
  simp only [crcShifts_eq_iterate, Function.iterate_add_apply]

theorem crcShifts_xor (poly : Byte) (k : Nat) (a b : Byte) :
    crcShifts poly k (a ^^^ b) = crcShifts poly k a ^^^ crcShifts poly k b := by
  induction k generalizing a b with
  | zero => rfl
  | succ k ih => rw [crcShifts, crcShift_xor, ih]; rfl

@[simp] theorem crcShifts_zero (poly : Byte) (k : Nat) : crcShifts poly k 0#8 = 0#8 := by
  simpa using crcShifts_xor poly k 0#8 0#8

/-- With polynomial 0 eight shifts empty the byte (41_checksum.md R102). -/
theorem crcShifts_poly_zero (c : Byte) : crcShifts 0 8 c = 0 := by
  have hshift (c : Byte) : crcShift 0 c = c <<< 1 := by simp [crcShift]
  simp only [crcShifts, hshift, ← BitVec.shiftLeft_add]
  exact BitVec.shiftLeft_eq_zero le_rfl

/-- With a constant term in the polynomial, bit 0 after the shift tells what bit 7 was. -/
theorem getLsbD_zero_crcShift {poly : Byte} (hp : poly.getLsbD 0 = true) (c : Byte) :
    (crcShift poly c).getLsbD 0 = c.getLsbD 7 := by
  unfold crcShift
  cases h : c.getLsbD 7 <;> simp [hp]

theorem crcShift_injective {poly : Byte} (hp : poly.getLsbD 0 = true) : Function.Injective (crcShift poly) := by
  intro a b h
  have htop : a.getLsbD 7 = b.getLsbD 7 := by rw [← getLsbD_zero_crcShift hp, h, getLsbD_zero_crcShift hp]
  have hlow : a <<< 1 = b <<< 1 := by
    simp only [crcShift, htop] at h
    split at h
    · exact (BitVec.xor_left_inj poly).1 h
    · exact h
  apply BitVec.eq_of_getLsbD_eq
  intro i hi
  obtain rfl | hi7 := eq_or_ne i 7
  · exact htop
  · simpa [hi, show i + 1 < 8 by omega] using congrArg (BitVec.getLsbD · (i + 1)) hlow

theorem crcShifts_injective {poly : Byte} (hp : poly.getLsbD 0 = true) (k : Nat) :
    Function.Injective (crcShifts poly k) := by
  rw [show crcShifts poly k = (crcShift poly)^[k] from funext (crcShifts_eq_iterate poly k)]
  exact (crcShift_injective hp).iterate k

/-! ## The engine as one fold -/

/-- A byte with the bit that the engine consumes first at bit 7 (41_checksum.md R108). -/
def bitOrder (reflected : Bool) (b : Byte) : Byte := if reflected then flip8 b else b

@[simp] theorem bitOrder_bitOrder (reflected : Bool) (b : Byte) : bitOrder reflected (bitOrder reflected b) = b := by
  cases reflected
  · rfl
  · exact flip8_flip8 b

theorem bitOrder_xor (reflected : Bool) (a b : Byte) :
    bitOrder reflected (a ^^^ b) = bitOrder reflected a ^^^ bitOrder reflected b := by
  cases reflected
  · rfl
  · exact flip8_xor a b

@[simp] theorem bitOrder_zero (reflected : Bool) : bitOrder reflected 0#8 = 0#8 := by
  cases reflected
  · rfl
  · exact flip8_zero

theorem bitOrder_injective (reflected : Bool) : Function.Injective (bitOrder reflected) :=
  Function.LeftInverse.injective (bitOrder_bitOrder reflected)

theorem tableEntry_eq (poly : Byte) (reflected : Bool) (i : Byte) :
    tableEntry poly reflected i = bitOrder reflected (crcShifts poly 8 (bitOrder reflected i)) := by
  cases reflected <;> simp only [tableEntry, bitOrder, if_true, Bool.false_eq_true, if_false]

/-- One byte into a register that holds the checksum of the bytes before it, not reversed (41_checksum.md R105). -/
def crcFeed (poly : Byte) (reflected : Bool) (crc b : Byte) : Byte := crcShifts poly 8 (crc ^^^ bitOrder reflected b)

/-- The table form's accumulator is the register, reversed throughout for a reflected table (41_checksum.md R101, R104). -/
theorem checksum_mkTable (poly : Byte) (reflected : Bool) (bytes : List Byte) :
    checksum (mkTable poly reflected) bytes = bytes.foldl (crcFeed poly reflected) 0 := by
  have hstep (crc b : Byte) : crcFeed poly reflected (bitOrder reflected crc) b =
      bitOrder reflected (crcStep (mkTable poly reflected) crc b) := by
    rw [crcStep_mkTable, tableEntry_eq, bitOrder_bitOrder, bitOrder_xor, crcFeed]
  calc checksum (mkTable poly reflected) bytes
    _ = bitOrder reflected (bytes.foldl (crcStep (mkTable poly reflected)) 0) := rfl
    _ = bytes.foldl (crcFeed poly reflected) (bitOrder reflected 0) := (List.foldl_hom _ hstep).symm
    _ = bytes.foldl (crcFeed poly reflected) 0 := by rw [show bitOrder reflected 0 = 0 from bitOrder_zero reflected]

theorem checksum_concat (poly : Byte) (reflected : Bool) (bytes : List Byte) (b : Byte) :
    checksum (mkTable poly reflected) (bytes ++ [b]) =
      crcFeed poly reflected (checksum (mkTable poly reflected) bytes) b := by
  simp only [checksum_mkTable, List.foldl_append, List.foldl_cons, List.foldl_nil]

/-! ## The bit-serial form (41_checksum.md R105) -/

/-- The bit that leaves `d` is the one that the exclusive or with the reversed byte would have put at bit 7. -/
theorem serialBitReflected_xor (poly crc d : Byte) :
    (serialBitReflected poly crc d).1 ^^^ flip8 (serialBitReflected poly crc d).2 = crcShift poly (crc ^^^ flip8 d) := by
  have htop : (crc ^^^ flip8 d).getLsbD 7 = (crc.getLsbD 7 ^^ d.getLsbD 0) := by
    rw [BitVec.getLsbD_xor, getLsbD_flip8 d 7 (by decide)]
  have hflip : flip8 (d >>> 1) = flip8 d <<< 1 := by
    apply BitVec.eq_of_getLsbD_eq
    intro i hi
    rw [getLsbD_flip8 _ _ hi, BitVec.getLsbD_ushiftRight, BitVec.getLsbD_shiftLeft]
    obtain rfl | hpos := Nat.eq_zero_or_pos i
    · simp
    · rw [getLsbD_flip8 _ _ (by omega), show 1 + (7 - i) = 7 - (i - 1) by omega]
      simp [hi, show ¬ i < 1 by omega]
  unfold crcShift
  simp only [serialBitReflected, hflip, htop, BitVec.shiftLeft_xor_distrib]
  split
  · ac_rfl
  · rfl

/-- After `k` bits what is left of `d` is still to come. -/
theorem serialBitsReflected_xor (poly : Byte) (k : Nat) (crc d : Byte) :
    serialBitsReflected poly k crc d ^^^ flip8 (d >>> k) = crcShifts poly k (crc ^^^ flip8 d) := by
  induction k generalizing crc d with
  | zero => rfl
  | succ k ih =>
    have hleft : d >>> (k + 1) = d >>> 1 >>> k := by rw [← BitVec.shiftRight_add, Nat.add_comm]
    rw [crcShifts, ← serialBitReflected_xor, ← ih, hleft]
    rfl

theorem serialBitsReflected_eight (poly crc d : Byte) :
    serialBitsReflected poly 8 crc d = crcShifts poly 8 (crc ^^^ flip8 d) := by
  have hout : d >>> 8 = 0#8 := BitVec.ushiftRight_eq_zero le_rfl
  simpa [hout] using serialBitsReflected_xor poly 8 crc d

theorem serialChecksum_eq (poly : Byte) (reflected : Bool) (bytes : List Byte) :
    serialChecksum poly reflected bytes = bytes.foldl (crcFeed poly reflected) 0 := by
  refine List.foldl_ext _ _ _ fun crc d _ => ?_
  cases reflected
  · rfl
  · exact serialBitsReflected_eight poly crc d

theorem checksum_eq_serialChecksum (poly : Byte) (reflected : Bool) (bytes : List Byte) :
    checksum (mkTable poly reflected) bytes = serialChecksum poly reflected bytes :=
  (checksum_mkTable ..).trans (serialChecksum_eq ..).symm

/-! ## Linearity (41_checksum.md R109) -/

theorem crcFeed_xor (poly : Byte) (reflected : Bool) (c d a b : Byte) :
    crcFeed poly reflected (c ^^^ d) (a ^^^ b) = crcFeed poly reflected c a ^^^ crcFeed poly reflected d b := by
  rw [crcFeed, crcFeed, crcFeed, ← crcShifts_xor, bitOrder_xor]
  congr 1
  ac_rfl

theorem foldl_crcFeed_xor (poly : Byte) (reflected : Bool) {a b : List Byte} (h : a.length = b.length) (c d : Byte) :
    (xorBytes a b).foldl (crcFeed poly reflected) (c ^^^ d) =
      a.foldl (crcFeed poly reflected) c ^^^ b.foldl (crcFeed poly reflected) d := by
  induction a generalizing b c d with
  | nil =>
    obtain rfl := List.length_eq_zero_iff.1 h.symm
    rfl
  | cons x a ih =>
    cases b with
    | nil => cases h
    | cons y b =>
      simpa only [xorBytes, List.zipWith_cons_cons, List.foldl_cons, crcFeed_xor] using ih (Nat.succ.inj h) _ _

theorem checksum_xorBytes (poly : Byte) (reflected : Bool) {a b : List Byte} (h : a.length = b.length) :
    checksum (mkTable poly reflected) (xorBytes a b) =
      checksum (mkTable poly reflected) a ^^^ checksum (mkTable poly reflected) b := by
  rw [checksum_mkTable, checksum_mkTable, checksum_mkTable]
  exact foldl_crcFeed_xor poly reflected h 0 0

/-- A difference in the register is shifted on by every byte that follows. -/
theorem foldl_crcFeed_xor_init (poly : Byte) (reflected : Bool) (bytes : List Byte) (c d : Byte) :
    bytes.foldl (crcFeed poly reflected) (c ^^^ d) =
      bytes.foldl (crcFeed poly reflected) c ^^^ crcShifts poly (8 * bytes.length) d := by
  induction bytes generalizing c d with
  | nil => rfl
  | cons b bytes ih =>
    have hstep : crcFeed poly reflected (c ^^^ d) b = crcFeed poly reflected c b ^^^ crcShifts poly 8 d := by
      simpa [crcFeed] using crcFeed_xor poly reflected c d b 0#8
    rw [List.foldl_cons, hstep, ih, ← crcShifts_add]
    rfl

theorem checksum_alter (poly : Byte) (reflected : Bool) (front back : List Byte) (b e : Byte) :
    checksum (mkTable poly reflected) (front ++ (b ^^^ e) :: back) =
      checksum (mkTable poly reflected) (front ++ b :: back) ^^^
        crcShifts poly (8 * (back.length + 1)) (bitOrder reflected e) := by
  have hstep (c : Byte) : crcFeed poly reflected c (b ^^^ e) =
      crcFeed poly reflected c b ^^^ crcShifts poly 8 (bitOrder reflected e) := by
    simpa [crcFeed] using crcFeed_xor poly reflected c 0#8 b e
  simp only [checksum_mkTable, List.foldl_append, List.foldl_cons, hstep, foldl_crcFeed_xor_init, ← crcShifts_add]
  rfl

/-! ## Zero bytes (41_checksum.md R104) -/

theorem checksum_zeros_append (poly : Byte) (reflected : Bool) (k : Nat) (bytes : List Byte) :
    checksum (mkTable poly reflected) (List.replicate k 0 ++ bytes) = checksum (mkTable poly reflected) bytes := by
  have hzero : crcFeed poly reflected 0 0 = 0 := by simp [crcFeed]
  induction k with
  | zero => rfl
  | succ k ih => simpa only [List.replicate_succ, List.cons_append, checksum_mkTable, List.foldl_cons, hzero] using ih

theorem checksum_nil (poly : Byte) (reflected : Bool) : checksum (mkTable poly reflected) [] = 0 :=
  checksum_mkTable poly reflected []

/-! ## Residues (41_checksum.md R111) -/

/-- A message and its checksum, with its bits in the order the engine consumes them, leave nothing in the register. -/
theorem checksum_residue (poly : Byte) (reflected : Bool) (m : List Byte) :
    checksum (mkTable poly reflected) (m ++ [bitOrder reflected (checksum (mkTable poly reflected) m)]) = 0 := by
  rw [checksum_concat, crcFeed, bitOrder_bitOrder, BitVec.xor_self]
  exact crcShifts_zero poly 8

/-! ## The syndrome: what the comparison of CRC.CHECK comes down to (41_checksum.md R106) -/

/-- The checksum byte of a frame against the checksum of the bytes before it, as a difference. -/
def syndrome (t : CrcTable) (frame : List Byte) : Byte := checksum t frame.dropLast ^^^ frame.getLastD 0

@[simp] theorem syndrome_concat (t : CrcTable) (body : List Byte) (c : Byte) :
    syndrome t (body ++ [c]) = checksum t body ^^^ c := by
  rw [syndrome, List.dropLast_concat, List.getLastD_concat]

theorem checksumMatches_concat (t : CrcTable) (body : List Byte) (c : Byte) :
    checksumMatches t (body ++ [c]) = decide (checksum t body = c) := by
  rw [checksumMatches, List.getLast?_concat, List.dropLast_concat, Bool.eq_iff_iff, beq_iff_eq, Option.some.injEq,
    decide_eq_true_eq, eq_comm]

theorem checksumMatches_iff {t : CrcTable} {frame : List Byte} :
    checksumMatches t frame = true ↔ frame ≠ [] ∧ syndrome t frame = 0 := by
  obtain rfl | ⟨body, c, rfl⟩ := List.eq_nil_or_concat' frame
  · simp [checksumMatches]
  · rw [checksumMatches_concat, syndrome_concat]
    simp [BitVec.xor_eq_zero_iff]

/-- The syndrome is linear too: the checksum byte enters it by exclusive or. -/
theorem syndrome_xorBytes (poly : Byte) (reflected : Bool) {a b : List Byte} (h : a.length = b.length) :
    syndrome (mkTable poly reflected) (xorBytes a b) =
      syndrome (mkTable poly reflected) a ^^^ syndrome (mkTable poly reflected) b := by
  obtain rfl | ⟨a, x, rfl⟩ := List.eq_nil_or_concat' a
  · obtain rfl := List.length_eq_zero_iff.1 h.symm
    simp [syndrome, xorBytes, checksum_nil]
  · obtain rfl | ⟨b, y, rfl⟩ := List.eq_nil_or_concat' b
    · simp at h
    · have hab : a.length = b.length := by simpa using h
      have hxor : xorBytes (a ++ [x]) (b ++ [y]) = xorBytes a b ++ [x ^^^ y] := List.zipWith_append hab
      rw [hxor, syndrome_concat, syndrome_concat, syndrome_concat, checksum_xorBytes _ _ hab]
      ac_rfl

/-- Exclusive or with a valid frame keeps what CRC.CHECK says (41_checksum.md R109). -/
theorem checksumMatches_xorBytes (poly : Byte) (reflected : Bool) {a b : List Byte} (h : a.length = b.length)
    (ha : checksumMatches (mkTable poly reflected) a = true) :
    checksumMatches (mkTable poly reflected) (xorBytes a b) = checksumMatches (mkTable poly reflected) b := by
  obtain ⟨hne, ha⟩ := checksumMatches_iff.1 ha
  have hnil : xorBytes a b ≠ [] ↔ b ≠ [] := by
    simp only [ne_eq, ← List.length_eq_zero_iff, xorBytes, List.length_zipWith, h, min_self]
  rw [Bool.eq_iff_iff, checksumMatches_iff, checksumMatches_iff, hnil, syndrome_xorBytes _ _ h, ha]
  simp

/-- An alteration that adds something to the syndrome of a valid frame is detected. -/
theorem checksumMatches_eq_false {t : CrcTable} {frame frame' : List Byte} {e : Byte}
    (h : checksumMatches t frame = true) (hs : syndrome t frame' = syndrome t frame ^^^ e) (he : e ≠ 0) :
    checksumMatches t frame' = false := by
  rw [Bool.eq_false_iff]
  intro h'
  rw [(checksumMatches_iff.1 h).2, (checksumMatches_iff.1 h').2] at hs
  exact he (by simpa using hs.symm)

/-! ## One altered byte (41_checksum.md R110) -/

/-- What an alteration `e` of the byte that `after` bytes follow adds to the syndrome: the checksum byte is compared as it stands,
every other byte goes through the engine. -/
def byteSyndrome (poly : Byte) (reflected : Bool) (e : Byte) : Nat → Byte
  | 0 => e
  | after + 1 => crcShifts poly (8 * (after + 1)) (bitOrder reflected e)

theorem byteSyndrome_ne_zero {poly e : Byte} (hp : poly.getLsbD 0 = true) (reflected : Bool) (he : e ≠ 0) (after : Nat) :
    byteSyndrome poly reflected e after ≠ 0 := by
  cases after with
  | zero => exact he
  | succ after =>
    refine fun h => he (bitOrder_injective reflected (crcShifts_injective hp (8 * (after + 1)) ?_))
    exact h.trans (by simp)

theorem syndrome_modify (poly : Byte) (reflected : Bool) {frame : List Byte} {k after : Nat} (e : Byte)
    (hk : frame.length = k + after + 1) :
    syndrome (mkTable poly reflected) (frame.modify k (· ^^^ e)) =
      syndrome (mkTable poly reflected) frame ^^^ byteSyndrome poly reflected e after := by
  obtain ⟨front, b, back, rfl, rfl, halt⟩ := List.exists_of_modify (· ^^^ e) (show k < frame.length by omega)
  obtain rfl : after = back.length := by simp at hk; omega
  rw [halt]
  obtain rfl | ⟨back, c, rfl⟩ := List.eq_nil_or_concat' back
  · rw [syndrome_concat, syndrome_concat]
    exact (BitVec.xor_assoc ..).symm
  · rw [← List.cons_append, ← List.append_assoc, ← List.cons_append, ← List.append_assoc, syndrome_concat,
      syndrome_concat, checksum_alter, List.length_append, List.length_singleton, byteSyndrome]
    ac_rfl

/-- Putting `b` in the place of a byte is an alteration by the difference of the two. -/
theorem set_eq_modify_xor {frame : List Byte} {k : Nat} (h : k < frame.length) (b : Byte) :
    frame.set k b = frame.modify k (· ^^^ (frame[k] ^^^ b)) := by
  rw [List.modify_eq_set_get _ h, List.get_eq_getElem, xor_cancel_left]

/-! ## Altered bits under the default polynomial (41_checksum.md R110) -/

/-- The power of x that bit `j` of the byte that `after` bytes follow stands for: the engine consumes a byte from its bit 0 on, and
the checksum byte is compared without reversal. -/
def bitPower (j : Nat) : Nat → Nat
  | 0 => j
  | after + 1 => 8 * (after + 1) + (7 - j)

theorem byteSyndrome_bit {j : Nat} (hj : j < 8) (after : Nat) :
    byteSyndrome 0x07 true (BitVec.ofNat 8 (2 ^ j)) after = crcShifts 0x07 (bitPower j after) 1 := by
  cases after with
  | zero =>
    have hbit : ∀ j < 8, BitVec.ofNat 8 (2 ^ j) = crcShifts 0x07 j 1 := by decide
    exact hbit j hj
  | succ after =>
    have hbit : ∀ j < 8, flip8 (BitVec.ofNat 8 (2 ^ j)) = crcShifts 0x07 (7 - j) 1 := by decide
    rw [bitPower, crcShifts_add, ← hbit j hj]
    rfl

/-- The order of x modulo the default polynomial exceeds the number of bits of an 8-byte frame. -/
theorem crcShifts_one_ne_one : ∀ m < 64, m ≠ 0 → crcShifts 0x07 m 1 ≠ 1 := by decide

theorem crcShifts_one_ne {m n : Nat} (hmn : m < n) (hn : n < 64) : crcShifts 0x07 m 1 ≠ crcShifts 0x07 n 1 := by
  intro h
  rw [crcShifts_eq_iterate, crcShifts_eq_iterate] at h
  refine crcShifts_one_ne_one (n - m) (by omega) (by omega) ?_
  rw [crcShifts_eq_iterate]
  exact Function.iterate_cancel (crcShift_injective (by decide)) h.symm

/-- The power of x that bit `i` of a frame of `n` bytes stands for. -/
def framePower (n i : Nat) : Nat := bitPower (i % 8) (n - 1 - i / 8)

theorem framePower_lt {n i : Nat} (hi : i < 8 * n) : framePower n i < 8 * n := by
  unfold framePower
  cases h : n - 1 - i / 8 <;> simp only [bitPower] <;> omega

theorem framePower_injective {n i j : Nat} (hi : i < 8 * n) (hj : j < 8 * n) (h : framePower n i = framePower n j) :
    i = j := by
  unfold framePower at h
  cases hn : n - 1 - i / 8 <;> cases hm : n - 1 - j / 8 <;> simp only [hn, hm, bitPower] at h <;> omega

theorem length_flipBit (i : Nat) (bytes : List Byte) : (flipBit i bytes).length = bytes.length :=
  List.length_modify _ _ _

theorem syndrome_flipBit {frame : List Byte} {i : Nat} (hi : i < 8 * frame.length) :
    syndrome (mkTable 0x07 true) (flipBit i frame) =
      syndrome (mkTable 0x07 true) frame ^^^ crcShifts 0x07 (framePower frame.length i) 1 := by
  have hk : frame.length = i / 8 + (frame.length - 1 - i / 8) + 1 := by omega
  rw [framePower, ← byteSyndrome_bit (Nat.mod_lt i (by decide))]
  exact syndrome_modify 0x07 true _ hk

theorem checksumMatches_set {frame : List Byte} (h : checksumMatches (mkTable 0x07 true) frame = true) {k : Nat} {b : Byte}
    (hk : k < frame.length) (hb : b ≠ frame[k]) : checksumMatches (mkTable 0x07 true) (frame.set k b) = false := by
  have he : frame[k] ^^^ b ≠ 0 := fun h0 => hb (BitVec.xor_eq_zero_iff.1 h0).symm
  have hlen : frame.length = k + (frame.length - 1 - k) + 1 := by omega
  rw [set_eq_modify_xor hk]
  exact checksumMatches_eq_false h (syndrome_modify 0x07 true _ hlen) (byteSyndrome_ne_zero (by decide) true he _)

theorem checksumMatches_flipBit {frame : List Byte} (h : checksumMatches (mkTable 0x07 true) frame = true) {i : Nat}
    (hi : i < 8 * frame.length) : checksumMatches (mkTable 0x07 true) (flipBit i frame) = false := by
  refine checksumMatches_eq_false h (syndrome_flipBit hi) fun h0 => ?_
  have hone : (1 : Byte) = 0 := crcShifts_injective (by decide) _ (h0.trans (crcShifts_zero _ _).symm)
  exact absurd hone (by decide)

theorem checksumMatches_flipBit_flipBit {frame : List Byte} (h : checksumMatches (mkTable 0x07 true) frame = true)
    (hlen : frame.length ≤ 8) {i j : Nat} (hij : i < j) (hj : j < 8 * frame.length) :
    checksumMatches (mkTable 0x07 true) (flipBit i (flipBit j frame)) = false := by
  have hi : i < 8 * frame.length := hij.trans hj
  have hs : syndrome (mkTable 0x07 true) (flipBit i (flipBit j frame)) = syndrome (mkTable 0x07 true) frame ^^^
      (crcShifts 0x07 (framePower frame.length j) 1 ^^^ crcShifts 0x07 (framePower frame.length i) 1) := by
    rw [syndrome_flipBit (by rwa [length_flipBit]), syndrome_flipBit hj, length_flipBit, BitVec.xor_assoc]
  refine checksumMatches_eq_false h hs fun h0 => ?_
  have heq := BitVec.xor_eq_zero_iff.1 h0
  have hilt := framePower_lt hi
  have hjlt := framePower_lt hj
  obtain hlt | hsame | hlt := Nat.lt_trichotomy (framePower frame.length i) (framePower frame.length j)
  · exact crcShifts_one_ne hlt (by omega) heq.symm
  · exact hij.ne (framePower_injective hi hj hsame)
  · exact crcShifts_one_ne hlt (by omega) heq

/-! ## The operations -/

/-- An operation of an idle block on a table that is not seeded (41_checksum.md R103). -/
theorem whenIdle_withTable_unseeded {s : State} {k : Nat} {f : CrcTable → Outcome} (hx : s.xstate = .idle)
    (ht : s.tables[k]? = some none) : s.whenIdle (s.withTable k f) = .fault .crcTableUnseeded :=
  (whenIdle_idle hx).trans (withTable_unseeded ht)

/-- An operation of an idle block on a table that is not there (41_checksum.md R104). -/
theorem whenIdle_withTable_absent {s : State} {k : Nat} {f : CrcTable → Outcome} (hx : s.xstate = .idle)
    (ht : s.tables[k]? = none) : s.whenIdle (s.withTable k f) = .refused .badTableIndex :=
  (whenIdle_idle hx).trans (withTable_absent (List.getElem?_eq_none_iff.1 ht))

theorem execCrcInittable_absent {s : State} {k : Byte} (poly : Byte) (reflected : Bool) (hx : s.xstate = .idle)
    (hk : s.tables.length ≤ k.toNat) : execCrcInittable poly reflected k s = .refused .badTableIndex := by
  rw [execCrcInittable, whenIdle_idle hx]
  exact if_pos hk

theorem execCrcInittable_seeds {s : State} {k : Byte} (poly : Byte) (reflected : Bool) (hx : s.xstate = .idle)
    (hk : k.toNat < s.tables.length) :
    execCrcInittable poly reflected k s = .next (s.writeTable k.toNat (mkTable poly reflected)) := by
  rw [execCrcInittable, whenIdle_idle hx]
  exact if_neg (not_le.2 hk)

theorem execCrcCalc_seeded {s : State} {data : List Byte} {n : Nibble} {k : Byte} {t : CrcTable} (hx : s.xstate = .idle)
    (ht : s.tables[k.toNat]? = some (some t)) (hn : n.toNat ≤ s.cfg.maxXfer) :
    execCrcCalc data n k s = .next (s.deliver (.crc (checksum t (data.take n.toNat)))) := by
  rw [execCrcCalc, whenIdle_idle hx, withTable_seeded ht, if_pos hn]

theorem execCrcCheck_zero {s : State} (data : List Byte) (k : Byte) (hx : s.xstate = .idle) :
    execCrcCheck data 0 k s = .refused .badLength :=
  whenIdle_idle hx

/-- With bytes to check CRC.CHECK is an operation on its table (41_checksum.md R106). -/
theorem execCrcCheck_of_ne {s : State} {n : Nibble} (data : List Byte) (k : Byte) (hn : n ≠ 0) :
    execCrcCheck data n k s = s.whenIdle (s.withTable k.toNat fun t =>
      if n.toNat ≤ s.cfg.maxXfer then .next (s.deliver (.check (checksumMatches t (data.take n.toNat))))
      else .next (s.deliverFree fun k => .check (Config.freeCheck k))) := by
  rw [execCrcCheck, if_neg hn]

theorem execCrcCheck_seeded {s : State} {data : List Byte} {n : Nibble} {k : Byte} {t : CrcTable} (hx : s.xstate = .idle)
    (h0 : n ≠ 0) (ht : s.tables[k.toNat]? = some (some t)) (hn : n.toNat ≤ s.cfg.maxXfer) :
    execCrcCheck data n k s = .next (s.deliver (.check (checksumMatches t (data.take n.toNat)))) := by
  rw [execCrcCheck_of_ne data k h0, whenIdle_idle hx, withTable_seeded ht, if_pos hn]

/-- What CRC.CHECK compares: byte `n - 1` with the checksum of the bytes before it (41_checksum.md R106). -/
theorem checksumMatches_take {t : CrcTable} {data : List Byte} {n : Nat} {last : Byte} (hn : n ≠ 0)
    (hlast : data[n - 1]? = some last) :
    checksumMatches t (data.take n) = decide (checksum t (data.take (n - 1)) = last) := by
  obtain ⟨m, rfl⟩ := Nat.exists_eq_succ_of_ne_zero hn
  rw [Nat.succ_sub_one] at hlast ⊢
  rw [Nat.succ_eq_add_one, List.take_add_one, hlast, Option.toList_some, checksumMatches_concat]

end Sys2Proof.Machine

namespace Sys2Proof.Proofs

open Sys2Proof.Machine

/-- Settles O25: the table is the one `mkTable` builds, and with polynomial 0 eight shifts empty every byte. -/
theorem inittableBuildsTheTable : Obligations.InittableBuildsTheTable := by
  intro s poly reflected index hx shift
  refine ⟨execCrcInittable_absent poly reflected hx, fun hk => ⟨mkTable poly reflected,
    execCrcInittable_seeds poly reflected hx hk, rfl, rfl, fun i => ?_, ?_⟩⟩
  · rw [mkTable_entry, tableEntry, crcShifts_eq_iterate, crcShifts_eq_iterate]
    rfl
  · rintro rfl i
    rw [mkTable_entry, tableEntry_eq, crcShifts_poly_zero]
    exact bitOrder_zero reflected

/-- Settles O27: a seeded table of a canonical memory is one that CRC.INITTABLE built. -/
theorem calcAgreesWithTheSerialEngine : Obligations.CalcAgreesWithTheSerialEngine := by
  intro s m data n index t hx hn hw ht
  have hmk := Memory.wf_table hw ht
  refine ⟨?_, fun k => ?_⟩
  · rw [← checksum_eq_serialChecksum, ← hmk]
    exact execCrcCalc_seeded hx ht hn
  · rw [hmk]
    refine ⟨checksum_zeros_append .., ?_⟩
    rw [← List.append_nil (List.replicate k 0), checksum_zeros_append, checksum_nil]

/-- Settles O28: byte n-1 is the last of the first n bytes. -/
theorem checkComparesTheLastByte : Obligations.CheckComparesTheLastByte := by
  intro s data n index hx _
  refine ⟨?_, fun hn => ⟨fun ht => ?_, fun ht => ?_, fun t last ht hle hlast => ?_⟩⟩
  · rintro rfl
    exact execCrcCheck_zero data index hx
  · exact (execCrcCheck_of_ne data index hn).trans (whenIdle_withTable_absent hx ht)
  · exact (execCrcCheck_of_ne data index hn).trans (whenIdle_withTable_unseeded hx ht)
  · have hpos : n.toNat ≠ 0 := fun h => hn (BitVec.eq_of_toNat_eq h)
    rw [← checksumMatches_take hpos hlast]
    exact execCrcCheck_seeded hx hn ht hle

/-- Settles O31: both forms are the same fold. -/
theorem serialFormEqualsTableForm : Obligations.SerialFormEqualsTableForm :=
  checksum_eq_serialChecksum

/-- Settles O32: the checksum and the syndrome of an exclusive or are those of its parts. -/
theorem checksumIsLinear : Obligations.ChecksumIsLinear :=
  fun poly reflected _ _ h => ⟨checksum_xorBytes poly reflected h, checksumMatches_xorBytes poly reflected h⟩

/-- Settles O33: one altered byte adds a non-zero value to the syndrome, and the bits of a frame of at most 8 bytes add distinct powers
of x. -/
theorem smallAlterationsAreDetected : Obligations.SmallAlterationsAreDetected := by
  intro frame hlen h
  have hle : frame.length ≤ 8 := by omega
  exact ⟨fun _ _ hk hb => checksumMatches_set h hk hb, fun _ hi => checksumMatches_flipBit h hi,
    fun _ _ hij hj => checksumMatches_flipBit_flipBit h hle hij hj⟩

/-- Settles O34; without the reversal the message `01` under the default polynomial leaves a residue. -/
theorem residues : Obligations.Residues := by
  refine ⟨fun poly m => checksum_residue poly false m, fun poly m => checksum_residue poly true m, 0x07, [0x01], ?_⟩
  have hsum : checksum (mkTable 0x07 true) [0x01] = 0x89 := (checksum_mkTable ..).trans (by decide)
  rw [checksum_concat, hsum]
  decide

/-- Settles O26: CRC.CALC is an operation on its table. -/
theorem calcDeliversTheChecksum : Obligations.CalcDeliversTheChecksum :=
  fun _ _ _ _ hx =>
    ⟨whenIdle_withTable_absent hx, whenIdle_withTable_unseeded hx, fun _ ht hn => execCrcCalc_seeded hx ht hn⟩

/-- Settles O30: each of the operations is one on its table, DEC.REPLY because its length is that of a reply. -/
theorem unseededTableFaults : Obligations.UnseededTableFaults := by
  refine ⟨fun s hx ht => ?_, fun s k n data hx ht => ?_, fun s k n data hx hs hn => ?_⟩
  · exact ⟨fun _ _ _ => whenIdle_withTable_unseeded hx ht, fun _ _ => whenIdle_withTable_unseeded hx ht,
      fun _ => whenIdle_withTable_unseeded hx ht, fun _ _ => whenIdle_withTable_unseeded hx ht,
      fun _ => whenIdle_withTable_unseeded hx ht⟩
  · exact ⟨whenIdle_withTable_unseeded hx ht,
      fun hn => (execCrcCheck_of_ne data k hn).trans (whenIdle_withTable_unseeded hx ht)⟩
  · obtain ⟨t, ht⟩ := seeded_iff.1 hs
    exact ⟨_, execCrcCalc_seeded hx ht hn⟩

/-- Settles O35: `u32` and `i32` are the bit vector's own two's complement readings. -/
theorem signedValuesLoseNothing : Obligations.SignedValuesLoseNothing := by
  refine ⟨fun v hlo hhi => ⟨?_, BitVec.toInt_ofInt_eq_self (by decide) hlo hhi⟩, fun w => ⟨BitVec.ofInt_toInt, ?_⟩⟩
  · rw [u32, BitVec.toNat_ofInt]
    omega
  · rw [i32, BitVec.toInt_eq_toNat_cond]
    omega

end Sys2Proof.Proofs
end

section
/-! Proofs for 42_transport.md: the accept step of XCHG (R121), each transition of XSTATE as the step it is (R122 to R128), and that an
exchange ends if the clock goes on (R133). -/

namespace Sys2Proof.Machine

/-! ## A turn is its transition -/

/-- Every transition starts from an exchange in flight. -/
theorem Turn.busy {s s' : State} (h : Turn s s') : s.xstate ≠ .idle := by
  cases h <;> simp [*]

/-- RDREG's end with a reply whose checksum matches (44_register_engine.md R172). -/
theorem finishRdreg_of_ok {s : State} {t : CrcTable} {a : RegAddr} {v : Word}
    (ht : s.tables[s.cfg.crcIndex]? = some (some t)) (hd : decodeReply t s.replyBytes = .ok a v) :
    finishRdreg s = .next (s.completeRdreg v .received) := by
  simp only [finishRdreg, withTable_seeded ht, hd]

/-- The same with a reply whose checksum does not match. -/
theorem finishRdreg_of_mismatch {s : State} {t : CrcTable} (ht : s.tables[s.cfg.crcIndex]? = some (some t))
    (hd : decodeReply t s.replyBytes = .checksumMismatch) :
    finishRdreg s = .next (s.completeRdreg s.cfg.staleSentinel .checksumMismatch) := by
  simp only [finishRdreg, withTable_seeded ht, hd]

/-- Each transition is what the sequencer's turn does in its situation (42_transport.md R122 to R128). -/
theorem Turn.turnBusy_eq {s s' : State} (h : Turn s s') : turnBusy s = .next s' := by
  cases h with
  | clear hx | write hx => simp only [turnBusy, hx, turnClear, turnWrite]
  | hold hx he => simp only [turnBusy, hx, turnSettle, if_pos he]
  | written hx he h0 => simp only [turnBusy, hx, turnSettle, if_neg (not_lt.2 he), settleExit, if_pos h0]
  | startPoll hx he h0 => simp only [turnBusy, hx, turnSettle, if_neg (not_lt.2 he), settleExit, if_neg h0]
  | received hx ha ho => simp only [turnBusy, hx, turnPoll, State.bytesAvailable, if_pos ha, pollComplete]
  | value hx ha ho t ht a v hd =>
    simp only [turnBusy, hx, turnPoll, State.bytesAvailable, if_pos ha, pollComplete, ho]
    exact finishRdreg_of_ok ht hd
  | mismatch hx ha ho t ht hd =>
    simp only [turnBusy, hx, turnPoll, State.bytesAvailable, if_pos ha, pollComplete, ho]
    exact finishRdreg_of_mismatch ht hd
  | timedOut hx ha he ho =>
    simp only [turnBusy, hx, turnPoll, State.bytesAvailable, if_neg (not_le.2 ha), if_pos he, pollTimeout]
  | sentinel hx ha he ho =>
    simp only [turnBusy, hx, turnPoll, State.bytesAvailable, if_neg (not_le.2 ha), if_pos he, pollTimeout, ho]
  | wait hx ha he =>
    simp only [turnBusy, hx, turnPoll, State.bytesAvailable, if_neg (not_le.2 ha), if_neg (not_lt.2 he)]

/-- A step with the sequencer's turn next is the transition that the exchange's situation calls for. -/
theorem step_turn {s s' : State} {rest : List Event} (hn : s.sequencerNext rest) (ht : Turn { s with schedule := rest } s') :
    step s = .next s' :=
  (step_busy hn ht.busy).trans ht.turnBusy_eq

/-- In a state of the invariant an exchange in flight always has a transition (60_exceptions.md R192, R196). -/
theorem State.Inv.exists_turn {s : State} (h : s.Inv) (hx : s.xstate ≠ .idle) : ∃ s', Turn s s' := by
  obtain ⟨wl, rl, tm, hf⟩ := h.flight hx
  cases hs : s.xstate with
  | idle => exact absurd hs hx
  | clear => exact ⟨_, .clear hs⟩
  | write => exact ⟨_, .write hs⟩
  | settle =>
    obtain he | he := lt_or_ge (s.elapsedSince (s.latchClock s.ts)) s.cfg.settleMs
    · exact ⟨_, .hold hs he⟩
    · by_cases h0 : s.latchNibble s.rlen = 0
      · exact ⟨_, .written hs he h0⟩
      · exact ⟨_, .startPoll hs he h0⟩
  | poll =>
    obtain ha | ha := le_or_gt (s.latchNibble s.rlen).toNat s.rxbuf.length
    · by_cases ho : s.curOp = .rdreg
      · obtain ⟨-, -, -, -, hseed⟩ := hf.rdreg ho
        obtain ⟨t, ht⟩ := seeded_iff.1 hseed
        cases hd : decodeReply t (s.takeReply (s.latchNibble s.rlen)).replyBytes with
        | ok a v => exact ⟨_, .value hs ha ho t ht a v hd⟩
        | checksumMismatch => exact ⟨_, .mismatch hs ha ho t ht hd⟩
      · exact ⟨_, .received hs ha ho⟩
    · obtain he | he := lt_or_ge (s.latchClock s.tmo) (s.elapsedSince (s.latchClock s.tp))
      · by_cases ho : s.curOp = .rdreg
        · exact ⟨_, .sentinel hs ha he ho⟩
        · exact ⟨_, .timedOut hs ha he ho⟩
      · exact ⟨_, .wait hs ha he⟩

/-! ## Latch arrays -/

/-- The first `n` bytes of a sequence over an array: they are there, and the array's other bytes stay (42_transport.md R121, R126). -/
theorem overlay_take_getElem? {bytes : List Byte} {n : Nat} (h : n ≤ bytes.length) (a : List (Option Byte)) (i : Nat) :
    (overlay (bytes.take n) a)[i]? = if i < n then bytes[i]?.map some else a[i]? := by
  rw [overlay_getElem?, List.length_take_of_le h]
  split
  · rw [List.getElem?_take_of_lt ‹_›]
  · rfl

/-! ## The accept step -/

theorem exec_xchg_refused {s : State} {wl rl : Nibble} (data : List Byte) (tm : Nat) (hx : s.xstate = .idle)
    (h : s.cfg.maxXfer < wl.toNat ∨ s.cfg.maxXfer < rl.toNat) : exec (.xchg data wl rl tm) s = .refused .badLength :=
  (whenIdle_idle hx).trans (if_pos h)

theorem exec_xchg_accepts {s : State} {wl rl : Nibble} (data : List Byte) (tm : Nat) (hx : s.xstate = .idle)
    (hw : wl.toNat ≤ s.cfg.maxXfer) (hr : rl.toNat ≤ s.cfg.maxXfer) :
    exec (.xchg data wl rl tm) s = .next (s.accept .xchg (data.take wl.toNat) wl rl tm) :=
  (whenIdle_idle hx).trans (if_neg (by omega))

/-! ## How far an exchange is from its end -/

/-- How many transitions an exchange takes to its end at most. -/
def XState.turnsLeft : XState → Nat
  | .idle => 0
  | .clear => 4
  | .write => 3
  | .settle => 2
  | .poll => 1

theorem XState.turnsLeft_eq_zero {x : XState} : x.turnsLeft = 0 ↔ x = .idle := by
  cases x <;> simp [XState.turnsLeft]

/-- A rule other than the hold of SETTLE and the wait of POLL is enabled (42_transport.md R122, R123, R125 to R127). -/
def State.TurnEnabled (s : State) : Prop :=
  s.xstate = .clear ∨ s.xstate = .write ∨
    (s.xstate = .settle ∧ ∃ ts, s.ts = some ts ∧ s.cfg.settleMs ≤ s.elapsedSince ts) ∨
    (s.xstate = .poll ∧
      ((∃ rl, s.rlen = some rl ∧ rl.toNat ≤ s.rxbuf.length) ∨
        ∃ tm tp, s.tmo = some tm ∧ s.tp = some tp ∧ tm < s.elapsedSince tp))

theorem State.TurnEnabled.busy {s : State} (h : s.TurnEnabled) : s.xstate ≠ .idle := by
  obtain h | h | ⟨h, -⟩ | ⟨h, -⟩ := h <;> simp [h]

/-- A turn is due when the sequencer is next and has a rule enabled. -/
theorem turnDue_iff {s : State} : s.turnDue = true ↔ (∃ rest, s.sequencerNext rest) ∧ s.TurnEnabled := by
  unfold State.turnDue State.TurnEnabled State.sequencerNext
  rw [Bool.and_eq_true]
  refine and_congr ?_ ?_
  · cases s.schedule with
    | nil => simp
    | cons e rest => cases e <;> simp
  · cases s.xstate <;> simp [Option.any_eq_true]

/-- A transition changes nothing only where no rule but the hold or the wait is enabled, and otherwise brings the end nearer. -/
theorem Turn.eq_or_turnsLeft_lt {s s' : State} (h : Turn s s') :
    s' = s ∧ ¬ s.TurnEnabled ∨ s'.xstate.turnsLeft < s.xstate.turnsLeft := by
  cases h with
  | hold hx he =>
    refine .inl ⟨rfl, ?_⟩
    rintro (h | h | ⟨-, ts, hts, hd⟩ | ⟨h, -⟩)
    · simp [hx] at h
    · simp [hx] at h
    · simp only [hts, latchClock_some] at he
      omega
    · simp [hx] at h
  | wait hx ha he =>
    refine .inl ⟨rfl, ?_⟩
    rintro (h | h | ⟨h, -⟩ | ⟨-, ⟨rl, hrl, hd⟩ | ⟨tm, tp, htm, htp, hd⟩⟩)
    · simp [hx] at h
    · simp [hx] at h
    · simp [hx] at h
    · simp only [hrl, latchNibble_some] at ha
      omega
    · simp only [htm, htp, latchClock_some] at he
      omega
  | clear hx | write hx | written hx | startPoll hx | received hx | value hx | mismatch hx | timedOut hx | sentinel hx =>
    exact .inr (by simp [hx, XState.turnsLeft])

/-- A step of a busy block never takes the exchange away from its end: outside moves leave XSTATE, reset ends the exchange. -/
theorem Move.turnsLeft_le {s s' : State} (h : Move s s') (hx : s.xstate ≠ .idle) :
    s'.xstate.turnsLeft ≤ s.xstate.turnsLeft := by
  cases h with
  | idle _ _ hi | offer _ _ hi => exact absurd hi hx
  | busy rest _ _ _ ht =>
    obtain ⟨rfl, -⟩ | hlt := ht.eq_or_turnsLeft_lt
    · exact le_rfl
    · exact hlt.le
  | byte => simp
  | arrive _ _ _ _ hd _ he =>
    obtain ⟨bs, rfl⟩ := exec_arriving hd he
    simp
  | clock => exact le_rfl
  | reset => exact Nat.zero_le _

/-- In a state of the invariant an enabled turn brings the end nearer. -/
theorem State.TurnEnabled.exists_turn {s : State} (he : s.TurnEnabled) (h : s.Inv) :
    ∃ s', Turn s s' ∧ s'.xstate.turnsLeft < s.xstate.turnsLeft := by
  obtain ⟨s', ht⟩ := h.exists_turn he.busy
  exact ⟨s', ht, ht.eq_or_turnsLeft_lt.resolve_left fun hw => hw.2 he⟩

/-! ## Under every schedule -/

/-- The due turns ahead are this step, if it is one, and those after it. -/
theorem dueTurns_succ {s s' : State} (h : step s = .next s') (k : Nat) :
    s.dueTurns (k + 1) = (if s.turnDue then 1 else 0) + s'.dueTurns k := by
  rw [State.dueTurns, h]

/-- A step of a busy block that has enough due turns ahead leaves enough of them: a due turn is one transition, and a step that is
none takes nothing away. -/
theorem exists_step_of_dueTurns {s : State} {k : Nat} (h : s.Inv) (hx : s.xstate ≠ .idle)
    (hd : s.xstate.turnsLeft ≤ s.dueTurns (k + 1)) :
    ∃ s', step s = .next s' ∧ s'.xstate.turnsLeft ≤ s'.dueTurns k := by
  by_cases hdue : s.turnDue = true
  · obtain ⟨⟨rest, hn⟩, he⟩ := turnDue_iff.1 hdue
    obtain ⟨s', ht, hlt⟩ := State.TurnEnabled.exists_turn (s := { s with schedule := rest }) he (h.withQueues s.offers rest)
    have hs : step s = .next s' := step_turn hn ht
    rw [dueTurns_succ hs, if_pos hdue] at hd
    exact ⟨s', hs, Nat.le_of_lt_succ (hlt.trans_le (hd.trans_eq (Nat.add_comm _ _)))⟩
  · cases hs : step s with
    | next s' =>
      have hle := (step_move hs).turnsLeft_le hx
      rw [dueTurns_succ hs, if_neg hdue, Nat.zero_add] at hd
      exact ⟨s', rfl, hle.trans hd⟩
    | fault | refused =>
      rw [State.dueTurns, hs, if_neg hdue] at hd
      exact absurd (XState.turnsLeft_eq_zero.1 (Nat.le_zero.1 hd)) hx

/-- As many due turns as the exchange has transitions left end it (42_transport.md R133). -/
theorem run_idle_of_dueTurns {s : State} {k : Nat} (h : s.Inv) (hd : s.xstate.turnsLeft ≤ s.dueTurns k) :
    ∃ (j : Nat) (s' : State), j ≤ k ∧ core.run j s = .next s' ∧ s'.xstate = .idle := by
  induction k generalizing s with
  | zero => exact ⟨0, s, le_rfl, rfl, XState.turnsLeft_eq_zero.1 (Nat.le_zero.1 hd)⟩
  | succ k ih =>
    by_cases hx : s.xstate = .idle
    · exact ⟨0, s, Nat.zero_le _, rfl, hx⟩
    · obtain ⟨s₁, hs, hd₁⟩ := exists_step_of_dueTurns h hx hd
      obtain ⟨j, s', hj, hrun, hidle⟩ := ih ((step_move hs).inv h) hd₁
      exact ⟨j + 1, s', Nat.succ_le_succ hj, (run_succ_of_step hs j).trans hrun, hidle⟩

/-! ## Under some schedule of turns and clock moves -/

/-- Some list of turns and clock moves leads to IDLE. -/
def State.CanEnd (s : State) : Prop :=
  ∃ (sched : List Event) (s' : State),
    (∀ e ∈ sched, e = .sequencer ∨ ∃ more, e = .clock more) ∧
    core.run sched.length { s with schedule := sched } = .next s' ∧ s'.xstate = .idle

/-- One more event in front. -/
theorem State.CanEnd.cons {s s₁ : State} {e : Event} (hc : s₁.CanEnd) (he : e = .sequencer ∨ ∃ more, e = .clock more)
    (hs : ∀ rest, step { s with schedule := e :: rest } = .next { s₁ with schedule := rest }) : s.CanEnd := by
  obtain ⟨sched, s', hall, hrun, hidle⟩ := hc
  exact ⟨e :: sched, s', List.forall_mem_cons.2 ⟨he, hall⟩, (run_succ_of_step (hs sched) _).trans hrun, hidle⟩

theorem State.CanEnd.of_tick {s : State} {more : Nat} (hc : (s.tick more).CanEnd) : s.CanEnd :=
  hc.cons (.inr ⟨more, rfl⟩) fun _ => rfl

/-- A transition neither reads nor writes the schedule (10_state.md R10). -/
theorem Turn.withSchedule {s s' : State} (h : Turn s s') (rest : List Event) :
    Turn { s with schedule := rest } { s' with schedule := rest } := by
  cases h with
  | clear hx => exact .clear hx
  | write hx => exact .write hx
  | hold hx he => exact .hold hx he
  | written hx he h0 => exact .written hx he h0
  | startPoll hx he h0 => exact .startPoll hx he h0
  | received hx ha ho => exact .received hx ha ho
  | value hx ha ho t ht a v hd => exact .value (s := { s with schedule := rest }) hx ha ho t ht a v hd
  | mismatch hx ha ho t ht hd => exact .mismatch hx ha ho t ht hd
  | timedOut hx ha he ho => exact .timedOut hx ha he ho
  | sentinel hx ha he ho => exact .sentinel hx ha he ho
  | wait hx ha he => exact .wait hx ha he

theorem State.CanEnd.of_turn {s s' : State} (hc : s'.CanEnd) (ht : Turn s s') : s.CanEnd :=
  hc.cons (.inl rfl) fun rest => step_turn (.inl rfl) (ht.withSchedule rest)

/-- The clock reaches every elapsed time of CLOCK_BITS bits that it has not passed yet (60_exceptions.md R204, R205). -/
theorem le_elapsedSince_or_tick (s : State) (t : Nat) {d : Nat} (hd : d < s.cfg.clockRange) :
    d ≤ s.elapsedSince t ∨ ∃ more, (s.tick more).elapsedSince t = d := by
  obtain h | h := le_or_gt d (s.elapsedSince t)
  · exact .inl h
  · refine .inr ⟨d - s.elapsedSince t - 1, ?_⟩
    rw [elapsedSince_tick, show s.elapsedSince t + (d - s.elapsedSince t - 1 + 1) = d by omega, Nat.mod_eq_of_lt hd]

/-- A reply is not waited for for ever: there is nothing to read, or the timeout is not the greatest clock value (42_transport.md
R133). -/
def State.BoundedWait (s : State) : Prop := s.rlen = some 0 ∨ s.tmo ≠ some (2 ^ s.cfg.clockBits - 1)

/-- No transition writes the length and timeout latches (42_transport.md R121). -/
theorem Turn.boundedWait {s s' : State} (h : Turn s s') (hw : s.BoundedWait) : s'.BoundedWait := by
  cases h <;> exact hw

/-- An exchange in flight has a turn enabled at once or after one clock move (42_transport.md R133). -/
theorem State.Inv.turnEnabled_or_tick {s : State} (h : s.Inv) (hx : s.xstate ≠ .idle) (hw : s.BoundedWait) :
    s.TurnEnabled ∨ ∃ more, (s.tick more).TurnEnabled := by
  obtain ⟨wl, rl, tm, hf⟩ := h.flight hx
  cases hs : s.xstate with
  | idle => exact absurd hs hx
  | clear => exact .inl (.inl hs)
  | write => exact .inl (.inr (.inl hs))
  | settle =>
    obtain ⟨ts, hts⟩ := Option.isSome_iff_exists.1 (hf.settle hs)
    obtain ⟨-, -, hsettle, -⟩ := h.cfg
    obtain he | ⟨more, he⟩ := le_elapsedSince_or_tick s ts hsettle
    · exact .inl (.inr (.inr (.inl ⟨hs, ts, hts, he⟩)))
    · exact .inr ⟨more, .inr (.inr (.inl ⟨hs, ts, hts, he.ge⟩))⟩
  | poll =>
    obtain ⟨htp, h0⟩ := hf.poll hs
    obtain ⟨tp, htp⟩ := Option.isSome_iff_exists.1 htp
    have hne : tm ≠ s.cfg.clockRange - 1 := fun e =>
      hw.elim (fun hrl => h0 (Option.some.inj (hf.rlen.symm.trans hrl))) fun htm => htm (hf.tmo.trans (congrArg some e))
    have htm : tm < s.cfg.clockRange := h.times tm (.inl hf.tmo)
    obtain he | ⟨more, he⟩ := le_elapsedSince_or_tick s tp (d := tm + 1) (by omega)
    · exact .inl (.inr (.inr (.inr ⟨hs, .inr ⟨tm, tp, hf.tmo, htp, he⟩⟩)))
    · exact .inr ⟨more, .inr (.inr (.inr ⟨hs, .inr ⟨tm, tp, hf.tmo, htp, he.ge⟩⟩))⟩

/-- An exchange that does not wait for ever can end by turns and clock moves (42_transport.md R133). -/
theorem State.Inv.canEnd {s : State} (h : s.Inv) (hw : s.BoundedWait) : s.CanEnd := by
  induction hm : s.xstate.turnsLeft using Nat.strong_induction_on generalizing s with
  | _ m ih =>
    have enabled : ∀ {u : State}, u.Inv → u.BoundedWait → u.xstate = s.xstate → u.TurnEnabled → u.CanEnd := by
      intro u hu huw hux hue
      obtain ⟨u', ht, hlt⟩ := hue.exists_turn hu
      rw [hux, hm] at hlt
      exact (ih _ hlt (ht.inv hue.busy hu) (ht.boundedWait huw) rfl).of_turn ht
    by_cases hx : s.xstate = .idle
    · exact ⟨[], _, nofun, rfl, hx⟩
    · obtain he | ⟨more, he⟩ := h.turnEnabled_or_tick hx hw
      · exact enabled h hw rfl he
      · exact (enabled (h.tick more) hw rfl he).of_tick

end Sys2Proof.Machine

namespace Sys2Proof.Proofs

open Sys2Proof.Machine

/-- Settles O19: an exchange has at most four transitions left, every due turn is one of them, and no other step sets it back. -/
theorem exchangeEndsIfTheClockRuns : Obligations.ExchangeEndsIfTheClockRuns := by
  intro s k h _ hd
  have hleft : s.xstate.turnsLeft ≤ 4 := by cases s.xstate <;> decide
  exact run_idle_of_dueTurns h (hleft.trans hd)

/-- Settles O60: in each state of the exchange at most one clock move enables a turn, and each such turn brings the end nearer. -/
theorem exchangeCanEnd : Obligations.ExchangeCanEnd :=
  fun _ h _ hw => h.canEnd hw

/-- Settles O41: FB is overlaid with the first bytes of the data. -/
theorem xchgIsAccepted : Obligations.XchgIsAccepted := by
  intro s data wl rl tm hx hlen
  refine ⟨exec_xchg_refused data tm hx, fun hw hr => ⟨_, fun i => ?_, exec_xchg_accepts data tm hx hw hr⟩⟩
  exact overlay_take_getElem? (hw.trans hlen.ge) s.fb i

/-- Settles O46: the transition R126 of XCHG, which overlays RB with the oldest bytes. -/
theorem pollTakesACompleteReply : Obligations.PollTakesACompleteReply := by
  intro s rest rl hn hx ho hrl ha
  have hl : s.latchNibble s.rlen = rl := by rw [hrl, latchNibble_some]
  subst hl
  exact ⟨_, overlay_take_getElem? ha s.rb, step_turn hn (.received hx ha (by simp [ho]))⟩

/-- Settles O42: the transition R122. -/
theorem clearEmptiesTheBuffer : Obligations.ClearEmptiesTheBuffer :=
  fun _ _ hn hx => step_turn hn (.clear hx)

/-- Settles O43: the transition R123, on latches that are written. -/
theorem writeTransmitsTheFrame : Obligations.WriteTransmitsTheFrame := by
  intro s rest wl bytes hn hx hwl hlen hfb
  have hbytes : s.latchBytes s.fb (s.latchNibble s.wlen).toNat = bytes := by
    rw [hwl, latchNibble_some, ← hlen, latchBytes_eq s hfb]
  subst hbytes
  exact step_turn hn (.write hx)

/-- Settles O44: the transition R124. -/
theorem settleHolds : Obligations.SettleHolds := by
  intro s rest ts hn hx hts he
  exact step_turn hn (.hold hx (by rw [hts]; exact he))

/-- Settles O45: the two transitions of R125. -/
theorem settleExits : Obligations.SettleExits := by
  intro s rest ts rl hn hx hts hrl he
  have hrl' : s.latchNibble s.rlen = rl := by rw [hrl, latchNibble_some]
  have he' : s.cfg.settleMs ≤ s.elapsedSince (s.latchClock s.ts) := by rwa [hts]
  have hwritten : rl = 0 → step s = _ := fun h0 => step_turn hn (.written hx he' (hrl'.trans h0))
  refine ⟨fun h0 ho => ?_, fun h0 ho => ?_, fun h0 => step_turn hn (.startPoll hx he' fun e => h0 (hrl'.symm.trans e))⟩
  · rw [hwritten h0, ho]
    rfl
  · rw [hwritten h0, ho]
    rfl

/-- Settles O47: the transition R127 of XCHG and of RDREG. -/
theorem pollTimesOut : Obligations.PollTimesOut := by
  intro s rest rl tp tm hn hx hrl htp htm ha he
  have ha' : s.rxbuf.length < (s.latchNibble s.rlen).toNat := by rwa [hrl]
  have he' : s.latchClock s.tmo < s.elapsedSince (s.latchClock s.tp) := by rwa [htm, htp]
  exact ⟨fun ho => step_turn hn (.timedOut hx ha' he' (by simp [ho])), fun ho => step_turn hn (.sentinel hx ha' he' ho)⟩

/-- Settles O48: the transition R128; an elapsed time is never more than the greatest clock value. -/
theorem pollKeepsWaiting : Obligations.PollKeepsWaiting := by
  intro s rest rl tp tm hn hx hrl htp htm ha he
  have hle : s.elapsedSince tp ≤ tm := by
    obtain he | rfl := he
    · exact he
    · exact Nat.le_sub_one_of_lt (elapsedSince_lt s tp)
  exact step_turn hn (.wait hx (by rwa [hrl]) (by rwa [htm, htp]))

end Sys2Proof.Proofs
end

section
/-! Proofs for 43_frame_codec.md: the frames that the encoder builds (R150, R151), what the reply decoder makes of eight bytes (R153),
of a frame the encoder built (R156) and of an altered one (R157), and the frame rows as exchanges (R152; log 6). -/

namespace Sys2Proof.Machine

/-! ## Byte 2 of a frame (30_encoding.md R75) -/

/-- The logical address as byte 2 of a read request carries it: the operand with bit 7 cleared. -/
theorem zeroExtend_logicalAddr (b : Byte) : (logicalAddr b).zeroExtend 8 = b &&& 0x7F := by
  apply BitVec.eq_of_getLsbD_eq
  intro i hi
  unfold logicalAddr
  interval_cases i <;> simp

theorem addrByte_true_logicalAddr (b : Byte) : addrByte true (logicalAddr b) = (b &&& 0x7F) ||| 0x80 :=
  congrArg (· ||| 0x80) (zeroExtend_logicalAddr b)

theorem addrByte_false (a : RegAddr) : addrByte false a = a.zeroExtend 8 := BitVec.or_zero

theorem addrByte_false_logicalAddr (b : Byte) : addrByte false (logicalAddr b) = b &&& 0x7F :=
  (addrByte_false _).trans (zeroExtend_logicalAddr b)

/-- Bit 7 of the operand does not reach the logical address. -/
theorem logicalAddr_eq_setWidth_and (b : Byte) : logicalAddr b = (b &&& 0x7F).setWidth 7 := by
  rw [← zeroExtend_logicalAddr]
  exact (BitVec.setWidth_setWidth_of_le (logicalAddr b) (by decide : 7 ≤ 8)).symm

/-! ## The frames the encoder builds -/

theorem writeBody_logicalAddr (sync slave regAddr : Byte) (value : Word) :
    writeBody sync slave (logicalAddr regAddr) value =
      [sync, slave, (regAddr &&& 0x7F) ||| 0x80, value.extractLsb' 24 8, value.extractLsb' 16 8, value.extractLsb' 8 8,
        value.extractLsb' 0 8] := by
  rw [writeBody, addrByte_true_logicalAddr]
  rfl

theorem readreqBody_logicalAddr (sync slave regAddr : Byte) :
    readreqBody sync slave (logicalAddr regAddr) = [sync, slave, regAddr &&& 0x7F] := by
  rw [readreqBody, addrByte_false_logicalAddr]

/-! ## The reply decoder -/

/-- Eight bytes that are a body and one byte more: the decoder compares the checksum of the body with that byte (R153). -/
theorem decodeReply_of_concat {t : CrcTable} {frame : Vector Byte 8} {body : List Byte} {c : Byte}
    (h : frame.toList = body ++ [c]) :
    decodeReply t frame =
      if checksum t body = c then .ok (logicalAddr frame[2]) (payloadOf frame[3] frame[4] frame[5] frame[6])
      else .checksumMismatch := by
  have hlen : body.length = 7 := by simpa using (congrArg List.length h).symm
  have hbody : frame.toList.take 7 = body := by rw [h, List.take_left' hlen]
  have hlast : frame[7] = c := by
    rw [← Vector.getElem_toList (by simp)]
    simp [h, hlen]
  rw [decodeReply, hbody, hlast]

/-- The decoder undoes the encoder (R156): address and payload are split as they were assembled, and the checksum is the one just
appended. -/
theorem decodeReply_encodeWrite {t : CrcTable} {sync slave regAddr : Byte} {value : Word} {frame : Vector Byte 8}
    (h : frame.toList = encodeWrite t sync slave regAddr value) :
    decodeReply t frame = .ok (logicalAddr regAddr) value := by
  have hbyte (i : Nat) (hi : i < 8) : frame[i] = (encodeWrite t sync slave regAddr value)[i]'hi := by
    simp only [← h, Vector.getElem_toList]
  rw [decodeReply_of_concat h, if_pos rfl, hbyte 2, hbyte 3, hbyte 4, hbyte 5, hbyte 6]
  exact congrArg₂ ReplyResult.ok (logicalAddr_addrByte true _) (payloadOf_extract value)

/-! ## The operations -/

theorem exec_encWrite_seeded {s : State} {t : CrcTable} (slave regAddr : Byte) (value : Word) (hx : s.xstate = .idle)
    (ht : s.tables[s.cfg.crcIndex]? = some (some t)) :
    exec (.encWrite slave regAddr value) s = .next (s.deliver (.frame (encodeWrite t s.cfg.sync slave regAddr value))) :=
  (whenIdle_idle hx).trans (withTable_seeded ht)

theorem exec_encReadreq_seeded {s : State} {t : CrcTable} (slave regAddr : Byte) (hx : s.xstate = .idle)
    (ht : s.tables[s.cfg.crcIndex]? = some (some t)) :
    exec (.encReadreq slave regAddr) s = .next (s.deliver (.frame (encodeReadRequest t s.cfg.sync slave regAddr))) :=
  (whenIdle_idle hx).trans (withTable_seeded ht)

/-- The length is looked at before the table (R153). -/
theorem exec_decReply_badLength {s : State} {n : Nibble} (data : Vector Byte 8) (hx : s.xstate = .idle) (hn : n ≠ 8) :
    exec (.decReply data n) s = .refused .badLength :=
  (whenIdle_idle hx).trans (if_pos hn)

theorem exec_decReply_seeded {s : State} {t : CrcTable} (data : Vector Byte 8) (hx : s.xstate = .idle)
    (ht : s.tables[s.cfg.crcIndex]? = some (some t)) :
    exec (.decReply data 8) s = .next (s.deliver (.decoded (decodeReply t data))) :=
  (whenIdle_idle hx).trans (withTable_seeded ht)

theorem exec_frameWrite_accepts {s : State} (slave : Byte) (a : RegAddr) (v : Word) (c : Byte) (hx : s.xstate = .idle) :
    exec (.frameWrite slave a v c) s =
      .next (s.accept .xchg (writeBody s.cfg.sync slave a v ++ [c]) Config.writeLen 0 s.cfg.timeoutMs) :=
  whenIdle_idle hx

theorem exec_frameReadreq_accepts {s : State} (slave : Byte) (a : RegAddr) (c : Byte) (hx : s.xstate = .idle) :
    exec (.frameReadreq slave a c) s =
      .next (s.accept .xchg (readreqBody s.cfg.sync slave a ++ [c]) Config.readreqLen Config.replyLen s.cfg.timeoutMs) :=
  whenIdle_idle hx

end Sys2Proof.Machine

namespace Sys2Proof.Proofs

open Sys2Proof.Machine

/-- Settles O39: the decoder undoes the encoder, and `i32` undoes `u32`. -/
theorem decReplyUndoesEncWrite : Obligations.DecReplyUndoesEncWrite := by
  intro s slave regAddr value hx hs hlo hhi
  obtain ⟨t, ht⟩ := seeded_iff.1 hs
  refine ⟨⟨⟨(encodeWrite t s.cfg.sync slave regAddr (u32 value)).toArray, rfl⟩, u32 value, ?_, ?_, ?_⟩,
    encodeReadRequest t s.cfg.sync slave regAddr, rfl, ?_, fun data _ => ?_⟩
  · exact exec_encWrite_seeded _ _ _ hx ht
  · rw [exec_decReply_seeded _ hx ht, decodeReply_encodeWrite rfl, logicalAddr_eq_setWidth_and]
    rfl
  · exact (signedValuesLoseNothing.1 value hlo hhi).2
  · exact exec_encReadreq_seeded _ _ hx ht
  · exact exec_decReply_badLength data hx (by decide)

/-- Settles O40: byte 7 is still the checksum of the body that was encoded. -/
theorem alteredFrameIsRejected : Obligations.AlteredFrameIsRejected := by
  intro s t slave regAddr value body altered c frame hx ht henc hframe hne
  obtain ⟨hbody, hc⟩ := List.append_inj' henc rfl
  have hsum : checksum t body = c := by
    rw [← hbody]
    exact List.singleton_inj.1 hc
  rw [exec_decReply_seeded frame hx ht, decodeReply_of_concat hframe, if_neg fun h => hne (h.trans hsum.symm)]
  rfl

/-- Settles O36: byte 2 is the operand with bit 7 overwritten. -/
theorem encWriteDeliversTheFrame : Obligations.EncWriteDeliversTheFrame := by
  refine fun s slave regAddr value hx => ⟨whenIdle_withTable_unseeded hx, fun t ht => ?_⟩
  rw [exec_encWrite_seeded _ _ _ hx ht, encodeWrite, writeBody_logicalAddr]
  rfl

/-- Settles O37: byte 2 is the operand with bit 7 cleared. -/
theorem encReadreqDeliversTheFrame : Obligations.EncReadreqDeliversTheFrame := by
  refine fun s slave regAddr hx => ⟨whenIdle_withTable_unseeded hx, fun t ht => ?_⟩
  rw [exec_encReadreq_seeded _ _ hx ht, encodeReadRequest, readreqBody_logicalAddr]
  rfl

/-- Settles O38: with eight bytes DEC.REPLY is an operation on the codec's table, and the decoder compares the last byte. -/
theorem decReplyDecodes : Obligations.DecReplyDecodes := by
  refine fun s data n hx => ⟨fun hn => ?_, whenIdle_withTable_unseeded hx, ?_⟩
  · exact exec_decReply_badLength data hx (mt (congrArg BitVec.toNat) hn)
  · rintro t b0 b1 b2 b3 b4 b5 b6 b7 ht rfl
    rw [exec_decReply_seeded _ hx ht, decodeReply_of_concat (body := [b0, b1, b2, b3, b4, b5, b6]) (c := b7) rfl,
      ← logicalAddr_eq_setWidth_and]
    refine ⟨fun hne => ?_, fun heq => ?_⟩
    · rw [if_neg hne]
      rfl
    · rw [if_pos heq]
      rfl

/-- Settles O58: the accept step overlays FB with the frame's bytes. -/
theorem sentFramesAreExchanges : Obligations.SentFramesAreExchanges := by
  refine fun s slave a v c hx => ⟨?_, ?_⟩
  · rw [exec_frameWrite_accepts slave a v c hx]
    rfl
  · rw [exec_frameReadreq_accepts slave a c hx, readreqBody, addrByte_false]
    rfl

end Sys2Proof.Proofs
end

section
/-! Proofs for 44_register_engine.md: the accept steps and the ends of WRREG (R171) and RDREG (R172, R177), both operations run
from their offer to their end, and the control registers (R174 to R176). -/

namespace Sys2Proof.Machine

/-! ## The accept steps -/

theorem exec_wrreg_accepts {s : State} {t : CrcTable} (address : Byte) (value : Word) (hx : s.xstate = .idle)
    (ht : s.tables[s.cfg.crcIndex]? = some (some t)) :
    exec (.wrreg address value) s =
      .next { s.accept .wrreg (encodeWrite t s.cfg.sync s.slaveAddr address value) Config.writeLen 0 s.cfg.timeoutMs with
        addr := some (logicalAddr address) } :=
  (whenIdle_idle hx).trans (withTable_seeded ht)

theorem exec_rdreg_accepts {s : State} {t : CrcTable} (address : Byte) (hx : s.xstate = .idle)
    (ht : s.tables[s.cfg.crcIndex]? = some (some t)) :
    exec (.rdreg address) s =
      .next { s.accept .rdreg (encodeReadRequest t s.cfg.sync s.slaveAddr address) Config.readreqLen Config.replyLen
          s.cfg.timeoutMs with
        addr := some (logicalAddr address) } :=
  (whenIdle_idle hx).trans (withTable_seeded ht)

/-! ## RDREG's reply -/

/-- RB takes the oldest bytes of RXBUF, and what is behind them stays there (42_transport.md R126). -/
theorem takeReply_eq {s : State} {n : Nibble} {bytes more : List Byte} (h : s.rxbuf = bytes ++ more)
    (hlen : bytes.length = n.toNat) :
    s.takeReply n = { s with rb := overlay bytes s.rb, rbLen := some n, rxbuf := more } := by
  rw [State.takeReply, State.dropReceived, State.received, h, List.take_left' hlen, List.drop_left' hlen]

/-- What RDREG makes of a reply: the payload and Received, or the sentinel and ChecksumMismatch (R172). -/
def rdregOutcome (t : CrcTable) (sentinel : Word) (reply : Vector Byte 8) : Word × ResultCode :=
  match decodeReply t reply with
  | .ok _ v => (v, .received)
  | .checksumMismatch => (sentinel, .checksumMismatch)

/-- RDREG's end with a whole reply there: it is taken, and decides the value and the result (R172). -/
theorem Turn.rdregReply {s : State} {t : CrcTable} {reply : Vector Byte 8} {more : List Byte} (hx : s.xstate = .poll)
    (ho : s.curOp = .rdreg) (hrl : s.rlen = some 8) (ht : s.tables[s.cfg.crcIndex]? = some (some t))
    (hrx : s.rxbuf = reply.toList ++ more) :
    Turn s ({ s with rb := overlay reply.toList s.rb, rbLen := some 8, rxbuf := more }.completeRdreg
      (rdregOutcome t s.cfg.staleSentinel reply).1 (rdregOutcome t s.cfg.staleSentinel reply).2) := by
  have hl : s.latchNibble s.rlen = 8 := by rw [hrl, latchNibble_some]
  have ha : (s.latchNibble s.rlen).toNat ≤ s.rxbuf.length := by simp [hl, hrx]
  have hbytes : (s.takeReply (s.latchNibble s.rlen)).replyBytes = reply := by rw [hl, replyBytes_takeReply hrx]
  rw [← takeReply_eq (n := 8) hrx reply.length_toList, ← hl, rdregOutcome]
  cases hd : decodeReply t reply with
  | ok a v => exact .value hx ha ho t ht a v (hbytes.symm ▸ hd)
  | checksumMismatch => exact .mismatch hx ha ho t ht (hbytes.symm ▸ hd)

/-- The outcome hangs on the checksum of the bytes before the last alone: neither the address nor bytes 0 and 1 are compared with
anything (R177). -/
theorem rdregOutcome_eq (t : CrcTable) (sentinel : Word) (b0 b1 b2 b3 b4 b5 b6 b7 : Byte) :
    rdregOutcome t sentinel #v[b0, b1, b2, b3, b4, b5, b6, b7] =
      if checksum t [b0, b1, b2, b3, b4, b5, b6] = b7 then (payloadOf b3 b4 b5 b6, .received)
      else (sentinel, .checksumMismatch) := by
  rw [rdregOutcome, decodeReply_of_concat (body := [b0, b1, b2, b3, b4, b5, b6]) (c := b7) rfl]
  by_cases hsum : checksum t [b0, b1, b2, b3, b4, b5, b6] = b7
  · rw [if_pos hsum, if_pos hsum]
    rfl
  · rw [if_neg hsum, if_neg hsum]

/-! ## An exchange from its accept step to its end (42_transport.md R122 to R127) -/

/-- One more step at the end of a run. -/
theorem run_concat {n : Nat} {s s' s'' : State} (h : core.run n s = .next s') (h' : step s' = .next s'') :
    core.run (n + 1) s = .next s'' := by
  induction n generalizing s with
  | zero =>
    obtain rfl := Host.Outcome.next.inj h
    exact run_succ_of_step h' 0
  | succ n ih =>
    cases hs : step s with
    | next s₁ =>
      rw [run_succ_of_step hs] at h ⊢
      exact ih h
    | fault r | refused r => simp [Host.Core.run, core, hs] at h

/-- After a clock move of at least `d` milliseconds that many have elapsed since the reading before it (60_exceptions.md R204,
R205). -/
theorem le_elapsedSince_tick {s : State} {d more : Nat} (hd : d ≤ more + 1) (hlt : more + 1 < s.cfg.clockRange) :
    d ≤ (s.tick more).elapsedSince s.now := by
  rwa [elapsedSince_tick, elapsedSince_now, Nat.zero_add, Nat.mod_eq_of_lt hlt]

/-- An exchange whose `bytes` were transmitted from an emptied RXBUF, with the clock moved on since. -/
def State.transmittedThenTicked (s : State) (bytes : List Byte) (more : Nat) (rest : List Event) : State :=
  { s with rxbuf := [], line := s.line ++ [bytes], ts := some s.now, xstate := .settle, schedule := rest }.tick more

/-- CLEAR, WRITE and the clock, after the accept step: whatever stale bytes RXBUF held are gone, and FB has been transmitted
once. -/
theorem run_transmit {s₀ s : State} {bytes : List Byte} {more : Nat} {rest : List Event} (haccept : step s₀ = .next s)
    (hx : s.xstate = .clear) (hbytes : s.latchBytes s.fb (s.latchNibble s.wlen).toNat = bytes)
    (hs : s.schedule = .sequencer :: .sequencer :: .clock more :: rest) :
    core.run 4 s₀ = .next (s.transmittedThenTicked bytes more rest) := by
  subst hbytes
  have hclear := run_concat (run_succ_of_step haccept 0) (step_turn (.inl hs) (.clear hx))
  exact run_concat (run_concat hclear (step_turn (.inl rfl) (.write rfl))) rfl

/-- The same exchange once it polls for its reply. -/
def State.polling (s : State) (bytes : List Byte) (more : Nat) (rest : List Event) : State :=
  { s.transmittedThenTicked bytes more rest with
    tp := some (s.transmittedThenTicked bytes more rest).now, xstate := .poll }

/-- The settle exit with a reply to wait for, once the clock has moved by at least SETTLE_MS (R125). -/
theorem step_startPoll {s : State} {more : Nat} (bytes : List Byte) (rest : List Event)
    (hd : s.cfg.settleMs ≤ more + 1) (hlt : more + 1 < s.cfg.clockRange) (hrl : s.latchNibble s.rlen ≠ 0) :
    step (s.transmittedThenTicked bytes more (.sequencer :: rest)) = .next (s.polling bytes more rest) :=
  step_turn (.inl rfl) (.startPoll rfl (le_elapsedSince_tick hd hlt) hrl)

/-- A reply that arrives while polling enters the RXBUF that CLEAR emptied, and is all it then holds (20_memory.md R43). -/
theorem step_polling_arrive {s : State} {more : Nat} {rest : List Event} {reply : List Byte} (bytes : List Byte)
    (hlen : reply.length = 8) (hcap : 8 ≤ s.cfg.rxCap) :
    step (s.polling bytes more (.arrive reply :: rest)) = .next { s.polling bytes more rest with rxbuf := reply } :=
  (step_arrive_appends rfl hlen).trans (congrArg _ (appendBytes_of_empty rfl (hlen.trans_le hcap)))

/-! ## The control registers -/

theorem exec_csrrw_zero {s : State} (value : Word) (hx : s.xstate = .idle) :
    exec (.csrrw 0 value) s = .next { s with slaveAddr := value.setWidth 8 } :=
  whenIdle_idle hx

theorem exec_csrrw_refused {s : State} {csr : Byte} (value : Word) (hx : s.xstate = .idle) (h : csr ≠ 0) :
    exec (.csrrw csr value) s = .refused .badCsr :=
  (whenIdle_idle hx).trans (if_neg h)

theorem exec_csrr_value {s : State} {csr : Byte} {w : Word} (hx : s.xstate = .idle)
    (h : s.readCsr csr.toNat = .value w) :
    exec (.csrr csr) s = .next { s with results := s.results ++ [.csr w] } := by
  simp only [exec, execCsrr, whenIdle_idle hx, h]
  rfl

theorem exec_csrr_unwritten {s : State} {csr : Byte} (hx : s.xstate = .idle) (h : s.readCsr csr.toNat = .unwritten) :
    exec (.csrr csr) s = .fault .readOfUnwritten := by
  simp only [exec, execCsrr, whenIdle_idle hx, h]

theorem exec_csrr_absent {s : State} {csr : Byte} (hx : s.xstate = .idle) (h : s.readCsr csr.toNat = .absent) :
    exec (.csrr csr) s = .refused .badCsr := by
  simp only [exec, execCsrr, whenIdle_idle hx, h]

/-- A register that is a latch: ReadOfUnwritten before anything wrote it, its value extended with zeros after (R15, R175). -/
theorem exec_csrr_latch {s : State} {csr : Byte} {n : Nat} {latch : Option (BitVec n)} (hx : s.xstate = .idle)
    (h : s.readCsr csr.toNat = csrOfLatch latch) :
    (latch = none → exec (.csrr csr) s = .fault .readOfUnwritten) ∧
    ∀ v, latch = some v → exec (.csrr csr) s = .next { s with results := s.results ++ [.csr (v.zeroExtend 32)] } := by
  refine ⟨?_, ?_⟩
  · rintro rfl
    exact exec_csrr_unwritten hx h
  · rintro v rfl
    exact exec_csrr_value hx h

/-! The register map (10_state.md R19), one lemma per row. -/

theorem readCsr_slaveAddr (s : State) : s.readCsr 0 = .value (s.slaveAddr.zeroExtend 32) := rfl

theorem readCsr_status (s : State) : s.readCsr 1 = .value (s.status.zeroExtend 32) := rfl

theorem readCsr_rdata (s : State) : s.readCsr 2 = csrOfLatch s.rdata := rfl

theorem readCsr_rbLen (s : State) : s.readCsr 3 = csrOfLatch s.rbLen := rfl

theorem readCsr_rb (s : State) {i : Nat} (hi : i < 8) : s.readCsr (4 + i) = csrOfLatch s.rb[i]?.join := by
  interval_cases i <;> rfl

theorem readCsr_table_absent {s : State} {k : Nat} (ht : s.tables[k]? = none) : s.readCsr (12 + k) = .absent := by
  simp [State.readCsr, Nat.add_comm 12 k, ht]

theorem readCsr_table_unseeded {s : State} {k : Nat} (ht : s.tables[k]? = some none) :
    s.readCsr (12 + k) = .unwritten := by
  simp [State.readCsr, Nat.add_comm 12 k, ht]

theorem readCsr_table_seeded {s : State} {k : Nat} {t : CrcTable} (ht : s.tables[k]? = some (some t)) :
    s.readCsr (12 + k) = .value (t.cfgView.zeroExtend 32) := by
  simp [State.readCsr, Nat.add_comm 12 k, ht]

/-- STATUS of an idle block as a number: BUSY, bit 0, is 0 (10_state.md R16, R19). -/
theorem toNat_status_of_idle {s : State} (hx : s.xstate = .idle) :
    (s.status.zeroExtend 32).toNat = 2 * s.result.code.toNat + 16 * (s.seeded s.cfg.crcIndex).toNat := by
  have hb : s.busy = false := by simp [State.busy, hx]
  rw [State.status, hb]
  generalize s.result.code = r, s.seeded s.cfg.crcIndex = d
  revert r d
  decide

/-- CRC_CFG[k] of a seeded table as a number (10_state.md R19). -/
theorem toNat_cfgView (t : CrcTable) :
    (t.cfgView.zeroExtend 32).toNat = t.poly.toNat + 256 * t.reflected.toNat + 512 := by
  rw [CrcTable.cfgView]
  generalize t.poly = p, t.reflected = r
  revert p r
  decide

end Sys2Proof.Machine

namespace Sys2Proof.Proofs

open Sys2Proof.Machine

/-- Settles O49: the accept step overlays FB with the frame, and the end is WRREG's settle exit with nothing to read. -/
theorem wrregSendsAWriteFrame : Obligations.WrregSendsAWriteFrame := by
  refine ⟨fun s address value hx => ⟨whenIdle_withTable_unseeded hx, fun t ht => ?_⟩,
    fun s rest ts hn hx ho hrl hts he => ?_⟩
  · rw [exec_wrreg_accepts address value hx ht, encodeWrite, writeBody_logicalAddr, logicalAddr_eq_setWidth_and]
    rfl
  · obtain ⟨-, hwritten, -⟩ := settleExits s rest ts 0 hn hx hts hrl he
    exact hwritten rfl ho

/-- Settles O50: the accept step overlays FB with the request; the reply is decoded from the eight bytes
just taken, and the timeout is RDREG's. -/
theorem rdregReadsOrGivesTheSentinel : Obligations.RdregReadsOrGivesTheSentinel := by
  refine ⟨fun s address hx => ⟨whenIdle_withTable_unseeded hx, fun t ht => ?_⟩,
    fun s rest t hn hx ho hrl ht => ⟨fun b0 b1 b2 b3 b4 b5 b6 b7 more hrx => ?_, fun tp tm ha htp htm he => ?_⟩⟩
  · rw [exec_rdreg_accepts address hx ht, encodeReadRequest, readreqBody_logicalAddr, logicalAddr_eq_setWidth_and]
    rfl
  · have hturn := Turn.rdregReply (s := { s with schedule := rest }) (reply := #v[b0, b1, b2, b3, b4, b5, b6, b7])
      hx ho hrl ht hrx
    rw [rdregOutcome_eq] at hturn
    refine ⟨fun hsum => ?_, fun hsum => ?_⟩
    · rw [if_pos hsum] at hturn
      exact step_turn hn hturn
    · rw [if_neg hsum] at hturn
      exact step_turn hn hturn
  · exact (pollTimesOut s rest 8 tp tm hn hx hrl htp htm ha he).2 ho

/-- Settles O51: the accept step, CLEAR, WRITE, the clock, and the settle exit with nothing to read. -/
theorem wrregRunsToItsEnd : Obligations.WrregRunsToItsEnd := by
  intro s address value t more os rest hx ht ho hs hd hlt
  have haccept := (step_offer (.inl hs) hx ho (decodeUndoesEncode s.cfg (.wrreg address value) rfl).1).trans
    (exec_wrreg_accepts address value hx ht)
  have htransmit := run_transmit haccept rfl (latchBytes_overlay ..) rfl
  have hend := run_concat htransmit (step_turn (.inl rfl) (.written rfl (le_elapsedSince_tick hd hlt) rfl))
  exact ⟨_, hend, rfl, rfl, rfl, rfl, rfl, rfl, rfl, rfl, rfl, rfl, rfl, rfl⟩

/-- Settles O52: as O51 up to the settle exit, which starts to poll; the reply enters the emptied RXBUF and is taken. -/
theorem rdregRunsToItsEnd : Obligations.RdregRunsToItsEnd := by
  intro s address t more os rest b0 b1 b2 b3 b4 b5 b6 b7 hx ht ho hs hcap hd hlt
  have haccept := (step_offer (.inl hs) hx ho (decodeUndoesEncode s.cfg (.rdreg address) rfl).1).trans
    (exec_rdreg_accepts address hx ht)
  have htransmit := run_transmit haccept rfl (latchBytes_overlay ..) rfl
  have hpoll := run_concat htransmit (step_startPoll _ _ hd hlt (show (8 : Nibble) ≠ 0 by decide))
  have harrive := run_concat hpoll (step_polling_arrive _ rfl hcap)
  have hend := run_concat harrive (step_turn (.inl rfl)
    (.rdregReply (reply := #v[b0, b1, b2, b3, b4, b5, b6, b7]) rfl rfl rfl ht (List.append_nil _).symm))
  have hout := rdregOutcome_eq t s.cfg.staleSentinel b0 b1 b2 b3 b4 b5 b6 b7
  refine ⟨_, _, _, hend, rfl, rfl, rfl, rfl, rfl, fun hsum => ?_, fun hsum => ?_, rfl, rfl, rfl, rfl, rfl⟩
  · exact Prod.mk.inj (hout.trans (if_pos hsum))
  · exact Prod.mk.inj (hout.trans (if_neg hsum))

/-- Settles O55: each row of the register map, a latch or a table written or not. -/
theorem csrrReadsTheRegister : Obligations.CsrrReadsTheRegister := by
  intro s csr hx
  refine ⟨fun h => ?_, fun h => ?_, fun h => ?_, fun h => ?_, fun i hi h => ?_, fun k h => ?_⟩
  · exact exec_csrr_value hx (h ▸ readCsr_slaveAddr s)
  · exact ⟨_, exec_csrr_value hx (h ▸ readCsr_status s), toNat_status_of_idle hx⟩
  · obtain ⟨hnone, hsome⟩ := exec_csrr_latch hx (h ▸ readCsr_rdata s)
    exact ⟨hnone, fun w hw => by simpa using hsome w hw⟩
  · exact exec_csrr_latch hx (h ▸ readCsr_rbLen s)
  · obtain ⟨hnone, hsome⟩ := exec_csrr_latch hx (h ▸ readCsr_rb s hi)
    exact ⟨fun hb => hnone (by rw [hb]; rfl), fun b hb => hsome b (by rw [hb]; rfl)⟩
  · refine ⟨fun ht => exec_csrr_unwritten hx (h ▸ readCsr_table_unseeded ht), fun t ht => ⟨_, ?_, toNat_cfgView t⟩⟩
    exact exec_csrr_value hx (h ▸ readCsr_table_seeded ht)

/-- Settles O53: bits 7:0 are what is left of the value at the register's width. -/
theorem csrrwWritesTheSlaveAddress : Obligations.CsrrwWritesTheSlaveAddress := by
  refine fun s csr value hx => ⟨?_, exec_csrrw_refused value hx⟩
  rintro rfl
  rw [exec_csrrw_zero value hx, BitVec.setWidth_eq_extractLsb' (by decide)]

/-- Settles O54: the numbers from 12 on are the tables', and behind the last of them there is no register. -/
theorem absentCsrIsRefused : Obligations.AbsentCsrIsRefused := by
  refine fun s csr value hx => ⟨fun h => exec_csrrw_refused value hx (mt (congrArg BitVec.toNat) h), fun h => ?_⟩
  obtain ⟨k, hk⟩ := Nat.exists_eq_add_of_le (Nat.le_of_add_right_le h)
  exact exec_csrr_absent hx (hk ▸ readCsr_table_absent (List.getElem?_eq_none (by omega)))

end Sys2Proof.Proofs
end

section
/-! Proofs for 60_exceptions.md: Busy before any other reason (R193, R195), an exchange in flight never stuck (R192, R196), the clock
(R204, R205), who changes RXBUF and how (R208, R211, R212), and the idle block (R215). -/

namespace Sys2Proof.Machine

/-! ## Busy before any other reason -/

/-- Every meaning but that of an arriving frame asks first whether XSTATE is IDLE (60_exceptions.md R195 (c)). -/
theorem exec_busy {s : State} {i : Instr} (hx : s.xstate ≠ .idle) (hi : ∀ b0 b1 f a v c, i ≠ .frameReply b0 b1 f a v c) :
    exec i s = .refused .busy := by
  cases i with
  | frameReply => exact absurd rfl (hi _ _ _ _ _ _)
  | crcInittable | crcCalc | crcCheck | xchg | encWrite | encReadreq | decReply | wrreg | rdreg | csrrw | csrr | reserved
  | frameWrite | frameReadreq => exact whenIdle_busy hx

/-! ## The clock -/

/-- The clock agent's move (60_exceptions.md R205). -/
theorem step_clock {s : State} {more : Nat} {rest : List Event} (hs : s.schedule = .clock more :: rest) :
    step s = .next ({ s with schedule := rest }.tick more) := by
  simp only [step, nextAction, hs]

/-- Elapsed time is the difference of the readings modulo the clock's range, whatever these are (60_exceptions.md R204). -/
theorem elapsedSince_eq_emod (s : State) (t : Nat) :
    (s.elapsedSince t : Int) = ((s.now : Int) - (t : Int)) % (s.cfg.clockRange : Int) := by
  have hle : t % s.cfg.clockRange ≤ s.cfg.clockRange := (Nat.mod_lt t (clockRange_pos s.cfg)).le
  rw [State.elapsedSince, Int.natCast_emod, Nat.cast_add, Nat.cast_sub hle, Int.natCast_emod, ← add_sub_assoc,
    add_sub_right_comm, Int.add_emod_right, Int.sub_emod_emod]

/-! ## Who changes RXBUF -/

/-- A byte that arrives at capacity leaves at most RX_CAP bytes of a free value, and takes one such value (60_exceptions.md R212;
log 8). -/
theorem appendByte_of_full {s : State} (b : Byte) (h : s.cfg.rxCap ≤ s.rxbuf.length) :
    ∃ buf : List Byte, buf.length ≤ s.cfg.rxCap ∧
      s.appendByte b = { s with rxbuf := buf, freeUses := s.freeUses + 1 } :=
  ⟨_, List.length_take_le _ _, if_neg (not_lt.2 h)⟩

/-- A reply frame travels to the block, so that no offer of the host is one (30_encoding.md R79). -/
theorem offer_ne_frameReply {cfg : Config} {o : HostOffer} {i : Instr} (hd : decode cfg o.transfer = .ok i)
    (b0 b1 : Byte) (f : Bool) (a : RegAddr) (v : Word) (c : Byte) : i ≠ .frameReply b0 b1 f a v c := by
  rintro rfl
  obtain ⟨-, hchannel, -⟩ := decode_eq_ok_iff.1 hd
  cases o <;> cases hchannel

/-- Accepting an exchange leaves RXBUF to the turn in CLEAR (42_transport.md R121, R122). -/
theorem Accepted.rxbuf_eq {s s' : State} {i : Instr} (h : Accepted s i s') : s'.rxbuf = s.rxbuf := by
  cases h <;> rfl

/-- Only an arriving frame touches RXBUF, of all instructions (10_state.md R31). -/
theorem Effect.rxbuf_eq {s s' : State} {i : Instr} (h : Effect s i s')
    (hi : ∀ b0 b1 f a v c, i ≠ .frameReply b0 b1 f a v c) : s'.rxbuf = s.rxbuf := by
  cases h with
  | seed | deliver | deliverFree | slaveAddr => rfl
  | accept _ _ ha => exact ha.rxbuf_eq
  | arrive => exact absurd rfl (hi _ _ _ _ _ _)

/-- RXBUF as the block's side leaves it: untouched, emptied in CLEAR (60_exceptions.md R208), or with its oldest bytes taken in POLL
(R211), which a timeout does not do (70_reset_and_hazards.md R243). -/
def State.ReceivesOnlyInPoll (s s' : State) : Prop :=
  s'.rxbuf = s.rxbuf ∨ s.xstate = .clear ∧ s'.rxbuf = [] ∨
    s.xstate = .poll ∧ ∃ n, n ≤ s.rxbuf.length ∧ s'.rxbuf = s.rxbuf.drop n ∧ s'.result ≠ .timedOut

/-- Of the transitions of XSTATE only R122 and R126 touch RXBUF, and the latter ends the exchange with what it received. -/
theorem Turn.receives {s s' : State} (h : Turn s s') : s.ReceivesOnlyInPoll s' := by
  cases h with
  | clear hx => exact .inr (.inl ⟨hx, rfl⟩)
  | received hx ha | value hx ha | mismatch hx ha => exact .inr (.inr ⟨hx, _, ha, rfl, nofun⟩)
  | write | hold | written | startPoll | timedOut | sentinel | wait => exact .inl rfl

/-- A move of the sequencer is an idle turn, which leaves RXBUF alone, or a transition. -/
theorem Move.receives {s s' : State} {rest : List Event} (h : Move s s') (hn : s.sequencerNext rest) :
    s.ReceivesOnlyInPoll s' := by
  cases h with
  | idle => exact .inl rfl
  | offer _ _ _ _ _ _ _ hd _ he => exact .inl ((exec_effect he).1.rxbuf_eq (offer_ne_frameReply hd))
  | busy _ _ _ _ ht => exact ht.receives
  | byte _ _ hs | arrive _ _ hs | clock _ _ hs | reset _ hs => simp [State.sequencerNext, hs] at hn

end Sys2Proof.Machine

namespace Sys2Proof.Proofs

open Sys2Proof.Machine

/-- Settles O18: the invariant gives every exchange in flight a transition, and the sequencer's turn takes it. -/
theorem exchangeNeverGetsStuck : Obligations.ExchangeNeverGetsStuck := by
  intro s rest h hx hn
  obtain ⟨s', ht⟩ := (h.withQueues s.offers rest).exists_turn hx
  exact ⟨s', step_turn hn ht⟩

/-- Settles O24: an offer is never a reply frame, and of the transitions only those of CLEAR and of a complete reply touch RXBUF. -/
theorem blockChangesTheBufferOnlyInClearAndPoll : Obligations.BlockChangesTheBufferOnlyInClearAndPoll :=
  fun _ _ _ hn h => (step_move h).receives hn

/-- Settles O9, which is what `exec` answers while an exchange is in flight. -/
theorem busyIsReportedFirst : Obligations.BusyIsReportedFirst :=
  fun _ _ => exec_busy

/-- Settles O10, which is what a step of an idle block with nothing offered is. -/
theorem idleBlockDoesNothing : Obligations.IdleBlockDoesNothing :=
  fun _ _ => step_idle

/-- Settles O11: a move of `d - 1` and one more millisecond, and elapsed time as a modular difference. -/
theorem clockAdvances : Obligations.ClockAdvances := by
  refine ⟨fun s d rest hd hs => ?_, fun s t => ?_⟩
  · rw [step_clock hs, State.tick, Nat.sub_add_cancel hd]
    rfl
  · rw [elapsedSince_eq_emod, Config.clockRange, Nat.cast_pow, Nat.cast_ofNat]

/-- Settles O12: the arriving byte finds room or a full buffer. -/
theorem byteArrives : Obligations.ByteArrives := by
  intro s b rest hs
  refine ⟨fun hroom => ?_, fun hfull => ?_⟩
  · exact (step_byte hs).trans (congrArg _ (appendByte_of_room hroom))
  · obtain ⟨buf, hlen, hbuf⟩ := appendByte_of_full (s := { s with schedule := rest }) b hfull
    exact ⟨buf, hlen, (step_byte hs).trans (congrArg _ hbuf)⟩

end Sys2Proof.Proofs
end

section
/-! Proofs for 70_reset_and_hazards.md: seeding the codec's table is all that the operations on its checksum wait for (R231). -/

namespace Sys2Proof.Machine

/-! ## A seeded table answers every length -/

/-- CRC.CALC on a seeded table answers the checksum or, above MAX_XFER, a free value (41_checksum.md R104; log 14). -/
theorem exists_execCrcCalc_next {s : State} {k : Byte} {t : CrcTable} (data : List Byte) (n : Nibble)
    (hx : s.xstate = .idle) (ht : s.tables[k.toNat]? = some (some t)) : ∃ s', execCrcCalc data n k s = .next s' := by
  obtain hn | hn := le_or_gt n.toNat s.cfg.maxXfer
  · exact ⟨_, execCrcCalc_seeded hx ht hn⟩
  · exact ⟨_, execCrcCalc_beyond hx ht hn⟩

/-- CRC.CHECK on a seeded table answers the comparison or, above MAX_XFER, a free value (41_checksum.md R106; log 14). -/
theorem exists_execCrcCheck_next {s : State} {n : Nibble} {k : Byte} {t : CrcTable} (data : List Byte)
    (hx : s.xstate = .idle) (h0 : n ≠ 0) (ht : s.tables[k.toNat]? = some (some t)) :
    ∃ s', execCrcCheck data n k s = .next s' := by
  obtain hn | hn := le_or_gt n.toNat s.cfg.maxXfer
  · exact ⟨_, execCrcCheck_seeded hx h0 ht hn⟩
  · exact ⟨_, execCrcCheck_beyond hx ht hn⟩

/-! ## Seeding -/

/-- The table that seeding wrote is found where it was written (41_checksum.md R102). -/
theorem writeTable_getElem?_self {s : State} {k : Nat} (t : CrcTable) (hk : k < s.tables.length) :
    (s.writeTable k t).tables[k]? = some (some t) :=
  List.getElem?_set_self hk

end Sys2Proof.Machine

namespace Sys2Proof.Proofs

open Sys2Proof.Machine

/-- Settles O57: the state that CRC.INITTABLE answers is idle and has the codec's table, on which each of the operations is one. -/
theorem seedingOpensTheCodec : Obligations.SeedingOpensTheCodec := by
  intro s poly reflected index hx hindex hk
  have ht := writeTable_getElem?_self (mkTable poly reflected) hk
  have hcodec : (s.writeTable index.toNat (mkTable poly reflected)).tables[s.cfg.crcIndex]? =
      some (some (mkTable poly reflected)) := hindex ▸ ht
  exact ⟨_, execCrcInittable_seeds poly reflected hx hk, seeded_iff.2 ⟨_, hcodec⟩,
    fun data n => exists_execCrcCalc_next data n hx ht,
    fun data _ hn => exists_execCrcCheck_next data hx hn ht,
    fun _ _ _ => ⟨_, exec_encWrite_seeded _ _ _ hx hcodec⟩,
    fun _ _ => ⟨_, exec_encReadreq_seeded _ _ hx hcodec⟩,
    fun _ => ⟨_, exec_decReply_seeded _ hx hcodec⟩,
    fun _ _ => ⟨_, exec_wrreg_accepts _ _ hx hcodec, rfl⟩,
    fun _ => ⟨_, exec_rdreg_accepts _ hx hcodec, rfl⟩⟩

end Sys2Proof.Proofs
end
